-- ==== Sys2Proof/Word.lean ====
section
/-! DEFINITION. The bytes and words of the machine and the width of an operation. -/

namespace Sys2Proof

/-- A byte of the stream or of data memory (R50, R52). -/
abbrev Byte := BitVec 8

/-- A 16-bit value: a register cell, `ip`, a displacement, an immediate, an address (R8, R21, R31, R41). -/
abbrev Word := BitVec 16

/-- The width of an operation, the decoded `w` bit: `byte` is `w = 0`, `word` is `w = 1` (R43, R71). -/
inductive Width where
  | byte
  | word
deriving DecidableEq, Repr

/-- Bits of a value of the width: `n` of 43_add_sub_cmp.md. -/
abbrev Width.bits : Width → Nat
  | .byte => 8
  | .word => 16

/-- Bytes of memory an access of the width touches (R60). -/
def Width.bytes : Width → Nat
  | .byte => 1
  | .word => 2

end Sys2Proof
end

