-- ==== Sys2Proof/Syntax.lean ====
section
/-! DEFINITION. The instructions as syntax: one constructor of `Instr` per row of spec/opcode_table.json, its operands the
fields of the row's encoding; and the decoded record of R40 to R43 with its operand variants. -/

namespace Sys2Proof

/-- A 3-bit register field value, 0..7 (R73). It is also a cell number of R21. -/
abbrev RegField := Fin 8

/-- The direction bit of format RM (R93): `rmIsDest` is `d = 0`, `regIsDest` is `d = 1`. -/
inductive Direction where
  | rmIsDest
  | regIsDest
deriving DecidableEq, Repr

/-- The register/memory field as an index into the base-term table, slots 0..7 in this order (R74). Slot 6, `bp`, is the
direct-address slot when `mod = 00`. -/
inductive BaseIndex where
  | bxSi
  | bxDi
  | bpSi
  | bpDi
  | si
  | di
  | bp
  | bx
deriving DecidableEq, Repr

/-- The `rm` operand of formats RM and IRM as it is encoded: the four cases of `mod`, and the direct address
(R72, R76, R117). -/
inductive RmOperand where
  /-- `mod = 11`: a register. -/
  | reg (r : RegField)
  /-- `mod = 00`, `rm ≠ 110`: base terms alone. -/
  | mem (b : BaseIndex)
  /-- `mod = 00`, `rm = 110`: a 16-bit direct address. -/
  | direct (addr : Word)
  /-- `mod = 01`: base terms and an 8-bit displacement. -/
  | memDisp8 (b : BaseIndex) (disp : Byte)
  /-- `mod = 10`: base terms and a 16-bit displacement. -/
  | memDisp16 (b : BaseIndex) (disp : Word)
deriving DecidableEq, Repr

/-- The fifteen forms (R80). `d`, `w`, `s`, `reg`, `rm`, `addr`, `disp8` are the fields of the encoding (R71); `data` is
`Immediate.value` as R92 assembles it, 16 bits. -/
inductive Instr where
  | movRegMem (d : Direction) (w : Width) (reg : RegField) (rm : RmOperand)
  | movImmRegMem (w : Width) (rm : RmOperand) (data : Word)
  | movImmReg (w : Width) (reg : RegField) (data : Word)
  | movMemAcc (w : Width) (addr : Word)
  | movAccMem (w : Width) (addr : Word)
  | addRegMem (d : Direction) (w : Width) (reg : RegField) (rm : RmOperand)
  | addImmRegMem (s : Bool) (w : Width) (rm : RmOperand) (data : Word)
  | addImmAcc (w : Width) (data : Word)
  | subRegMem (d : Direction) (w : Width) (reg : RegField) (rm : RmOperand)
  | subImmRegMem (s : Bool) (w : Width) (rm : RmOperand) (data : Word)
  | subImmAcc (w : Width) (data : Word)
  | cmpRegMem (d : Direction) (w : Width) (reg : RegField) (rm : RmOperand)
  | cmpImmRegMem (s : Bool) (w : Width) (rm : RmOperand) (data : Word)
  | cmpImmAcc (w : Width) (data : Word)
  | jne (disp8 : Byte)
deriving DecidableEq, Repr

/-- The closed enumeration of opcode tags (R40). -/
inductive Opcode where
  | movRegMem
  | movImmRegMem
  | movImmReg
  | movMemAcc
  | movAccMem
  | addRegMem
  | addImmRegMem
  | addImmAcc
  | subRegMem
  | subImmRegMem
  | subImmAcc
  | cmpRegMem
  | cmpImmRegMem
  | cmpImmAcc
  | jne
deriving DecidableEq, Repr

/-- Where a value can stand: a register named by its field value, or memory at base terms plus displacement. These are the
operands a value can be written to (R151). -/
inductive Place where
  | register (index : RegField)
  | memory (baseTerms : List RegField) (displacement : Word)
deriving DecidableEq, Repr

/-- What a value can be read from: a place, or an immediate (R150). -/
inductive Source where
  | place (p : Place)
  | immediate (value : Word)
deriving DecidableEq, Repr

/-- The operand variants of the decoded record (R41). -/
inductive Operand where
  | register (index : RegField) (width : Width)
  | memory (baseTerms : List RegField) (displacement : Word)
  | immediate (value : Word)
  | none
deriving DecidableEq, Repr

/-- Which variant an operand is, without its fields. -/
inductive OperandVariant where
  | register
  | memory
  | immediate
  | none
deriving DecidableEq, Repr

/-- The decoder's output record (R40). -/
structure InstrRecord where
  opcode : Opcode
  dst : Operand
  src : Operand
  sizeBytes : Nat
  wide : Bool
deriving DecidableEq, Repr

/-- The form of a decoded instruction, what an element of UNSUPPORTED_FORMS speaks of (R146). -/
structure Form where
  opcode : Opcode
  dst : OperandVariant
  src : OperandVariant
  wide : Bool
deriving DecidableEq, Repr

/-- An element of UNSUPPORTED_FORMS, "a predicate on (`opcode`, destination variant, source variant, `wide`)" (R146):
it asks for the values given and takes any where none is given. -/
structure FormPattern where
  opcode : Option Opcode := none
  dst : Option OperandVariant := none
  src : Option OperandVariant := none
  wide : Option Bool := none
deriving DecidableEq, Repr

end Sys2Proof
end

