-- ==== Sys2Proof/Config.lean ====
section
/-! DEFINITION. The parameters of the block, R5 (00_scope.md). Widths (XLEN, IP_WIDTH, EA_WIDTH, BYTE_ALU_WIDTH) and NREG
stand in the types. The spec leaves no value free (93_implementation_defined.md, Part 1), so nothing here is opaque. -/

namespace Sys2Proof.Config

/-- MEM_SIZE: bytes of data memory (R5, R52). -/
abbrev memSize : Nat := 1048576

/-- STREAM_MAX: the largest stream length (R5, R50). -/
abbrev streamMax : Nat := 65535

/-- MAX_INSN_LEN: the longest encoding in bytes (R5, R87). -/
abbrev maxInsnLen : Nat := 6

/-- MIN_INSN_LEN: the shortest encoding in bytes (R5, R87). -/
abbrev minInsnLen : Nat := 2

/-- UNSUPPORTED_FORMS at its default, the empty set (R5, R146). The engine takes the set as an argument
(`Machine.engineStep`); `Machine.step` runs it with this one. -/
abbrev unsupportedForms : List FormPattern := []

end Sys2Proof.Config
end

