-- ==== Sys2Proof/WellFormed.lean ====
section
/-! DEFINITION. Which instruction terms an encoding can give. Three checks: slot 6 with no displacement is a direct address
(R74); a byte operation's immediate is zero-extended (R92, D23); a word immediate with `s = 1` is a sign-extended byte (R92). -/

namespace Sys2Proof

/-- `mod = 00` with slot 6 is the direct address, so no operand is `mem bp` (R74, R117). -/
def RmOperand.wellFormed : RmOperand → Bool
  | .reg _ => true
  | .mem b => b != .bp
  | .direct _ => true
  | .memDisp8 _ _ => true
  | .memDisp16 _ _ => true

/-- The immediate of the forms with no `s` bit: at byte width its upper byte is zero (R92). -/
def dataFits (w : Width) (data : Word) : Bool :=
  match w with
  | .byte => data == (data.setWidth 8).setWidth 16
  | .word => true

/-- The immediate of `100000sw`: as above, and with `s = 1`, `w = 1` a sign-extended byte (R92). -/
def arithDataFits (s : Bool) (w : Width) (data : Word) : Bool :=
  match s, w with
  | true, .word => data == (data.setWidth 8).signExtend 16
  | _, _ => dataFits w data

/-- The instructions that stand for some encoding. -/
def Instr.wellFormed : Instr → Bool
  | .movRegMem _ _ _ rm => rm.wellFormed
  | .movImmRegMem w rm data => rm.wellFormed && dataFits w data
  | .movImmReg w _ data => dataFits w data
  | .movMemAcc _ _ => true
  | .movAccMem _ _ => true
  | .addRegMem _ _ _ rm => rm.wellFormed
  | .addImmRegMem s w rm data => rm.wellFormed && arithDataFits s w data
  | .addImmAcc w data => dataFits w data
  | .subRegMem _ _ _ rm => rm.wellFormed
  | .subImmRegMem s w rm data => rm.wellFormed && arithDataFits s w data
  | .subImmAcc w data => dataFits w data
  | .cmpRegMem _ _ _ rm => rm.wellFormed
  | .cmpImmRegMem s w rm data => rm.wellFormed && arithDataFits s w data
  | .cmpImmAcc w data => dataFits w data
  | .jne _ => true

end Sys2Proof
end

