-- ==== Sys2Proof/Decode.lean ====
section
/-! DEFINITION. The decoder (40_decode_procedure.md), total on any bytes; the decoded record and its length (R40 to R43, R87);
the stream walk (R125); the encoder, from the format tables R81 to R86; and the host's reading of an opcode-table word. -/

namespace Sys2Proof

/-! ### Bit fields and bytes -/

/-- `sext_16` of a byte (R8). -/
def sext16 (b : Byte) : Word := b.signExtend 16

/-- `zext_16` of a byte (R8). -/
def zext16 (b : Byte) : Word := b.setWidth 16

/-- `{hi, lo}` (R6). -/
def wordOfBytes (lo hi : Byte) : Word := hi ++ lo

/-- Bits 7..0. -/
def lowByte (v : Word) : Byte := v.extractLsb' 0 8

/-- Bits 15..8. -/
def highByte (v : Word) : Byte := v.extractLsb' 8 8

/-- The `w` bit as a width. -/
def Width.ofBit (b : Bool) : Width := if b then .word else .byte

/-- The width as its `w` bit. -/
def Width.bit : Width → BitVec 1
  | .byte => 0
  | .word => 1

/-- `wide` of the record (R43). -/
def Width.wide : Width → Bool
  | .byte => false
  | .word => true

/-- The `d` bit as a direction (R93). -/
def Direction.ofBit (b : Bool) : Direction := if b then .regIsDest else .rmIsDest

/-- The direction as its `d` bit. -/
def Direction.bit : Direction → BitVec 1
  | .rmIsDest => 0
  | .regIsDest => 1

/-- `b[7:6]`, the mode (R116). -/
def modField (b : Byte) : Fin 4 := (b.extractLsb' 6 2).toFin

/-- `b[5:3]`, the register field or the opcode extension (R116). -/
def regField (b : Byte) : RegField := (b.extractLsb' 3 3).toFin

/-- `b[2:0]`, the register/memory field, and the register field of format IR (R116). -/
def rmField (b : Byte) : RegField := (b.extractLsb' 0 3).toFin

/-- A register field value as its three bits. -/
def RegField.bits (r : RegField) : BitVec 3 := BitVec.ofNat 3 r.val

/-- The slot of the base-term table a field value selects (R74). -/
def BaseIndex.ofField (rm : RegField) : BaseIndex :=
  match rm with
  | 0 => .bxSi
  | 1 => .bxDi
  | 2 => .bpSi
  | 3 => .bpDi
  | 4 => .si
  | 5 => .di
  | 6 => .bp
  | 7 => .bx

/-- The slot as the three bits of `rm`. -/
def BaseIndex.bits : BaseIndex → BitVec 3
  | .bxSi => 0b000
  | .bxDi => 0b001
  | .bpSi => 0b010
  | .bpDi => 0b011
  | .si => 0b100
  | .di => 0b101
  | .bp => 0b110
  | .bx => 0b111

/-! ### Register and base-term names -/

/-- Cell numbers by their names (R22). -/
abbrev axCell : RegField := 0
abbrev cxCell : RegField := 1
abbrev dxCell : RegField := 2
abbrev bxCell : RegField := 3
abbrev spCell : RegField := 4
abbrev bpCell : RegField := 5
abbrev siCell : RegField := 6
abbrev diCell : RegField := 7

/-- The accumulator's field value, AX or AL (R14, R118). -/
abbrev accumulator : RegField := 0

/-- The cells of a slot of the base-term table, first term first (R74). -/
def BaseIndex.terms : BaseIndex → List RegField
  | .bxSi => [bxCell, siCell]
  | .bxDi => [bxCell, diCell]
  | .bpSi => [bpCell, siCell]
  | .bpDi => [bpCell, diCell]
  | .si => [siCell]
  | .di => [diCell]
  | .bp => [bpCell]
  | .bx => [bxCell]

/-- The `rm` operand as a place: the register, or base terms with the 16-bit displacement of R91 (R76, R117). -/
def RmOperand.place : RmOperand → Place
  | .reg r => .register r
  | .mem b => .memory b.terms 0
  | .direct addr => .memory [] addr
  | .memDisp8 b disp => .memory b.terms (sext16 disp)
  | .memDisp16 b disp => .memory b.terms disp

/-- Destination of format RM (R81, R93). -/
def regMemDest (d : Direction) (reg : RegField) (rm : RmOperand) : Place :=
  match d with
  | .regIsDest => .register reg
  | .rmIsDest => rm.place

/-- Source of format RM (R81, R93). -/
def regMemSource (d : Direction) (reg : RegField) (rm : RmOperand) : Source :=
  match d with
  | .regIsDest => .place rm.place
  | .rmIsDest => .place (.register reg)

/-! ### Lengths -/

/-- `dispLen(mod, rm)` (R75). -/
def RmOperand.dispLen : RmOperand → Nat
  | .reg _ => 0
  | .mem _ => 0
  | .direct _ => 2
  | .memDisp8 _ _ => 1
  | .memDisp16 _ _ => 2

/-- `immLen` of `100000sw`: two bytes only for `s = 0`, `w = 1` (R92). -/
def arithImmLen (s : Bool) (w : Width) : Nat :=
  match s, w with
  | false, .word => 2
  | _, _ => 1

/-- `size_bytes` (R87). -/
def Instr.size : Instr → Nat
  | .movRegMem _ _ _ rm => 2 + rm.dispLen
  | .movImmRegMem w rm _ => 2 + rm.dispLen + w.bytes
  | .movImmReg w _ _ => 1 + w.bytes
  | .movMemAcc _ _ => 3
  | .movAccMem _ _ => 3
  | .addRegMem _ _ _ rm => 2 + rm.dispLen
  | .addImmRegMem s w rm _ => 2 + rm.dispLen + arithImmLen s w
  | .addImmAcc w _ => 1 + w.bytes
  | .subRegMem _ _ _ rm => 2 + rm.dispLen
  | .subImmRegMem s w rm _ => 2 + rm.dispLen + arithImmLen s w
  | .subImmAcc w _ => 1 + w.bytes
  | .cmpRegMem _ _ _ rm => 2 + rm.dispLen
  | .cmpImmRegMem s w rm _ => 2 + rm.dispLen + arithImmLen s w
  | .cmpImmAcc w _ => 1 + w.bytes
  | .jne _ => 2

/-! ### The decoded record -/

/-- A place as an operand of the record, a register with its width (R41). -/
def Place.operand (w : Width) : Place → Operand
  | .register i => .register i w
  | .memory baseTerms disp => .memory baseTerms disp

/-- A source as an operand of the record. -/
def Source.operand (w : Width) : Source → Operand
  | .place p => p.operand w
  | .immediate v => .immediate v

/-- The opcode tag (R40). -/
def Instr.opcode : Instr → Opcode
  | .movRegMem _ _ _ _ => .movRegMem
  | .movImmRegMem _ _ _ => .movImmRegMem
  | .movImmReg _ _ _ => .movImmReg
  | .movMemAcc _ _ => .movMemAcc
  | .movAccMem _ _ => .movAccMem
  | .addRegMem _ _ _ _ => .addRegMem
  | .addImmRegMem _ _ _ _ => .addImmRegMem
  | .addImmAcc _ _ => .addImmAcc
  | .subRegMem _ _ _ _ => .subRegMem
  | .subImmRegMem _ _ _ _ => .subImmRegMem
  | .subImmAcc _ _ => .subImmAcc
  | .cmpRegMem _ _ _ _ => .cmpRegMem
  | .cmpImmRegMem _ _ _ _ => .cmpImmRegMem
  | .cmpImmAcc _ _ => .cmpImmAcc
  | .jne _ => .jne

/-- The operands (destination, source) as the record holds them (R120). JNE's displacement stands in the destination slot
and its source is absent (R86). -/
def Instr.operands : Instr → Operand × Operand
  | .movRegMem d w reg rm => ((regMemDest d reg rm).operand w, (regMemSource d reg rm).operand w)
  | .movImmRegMem w rm data => (rm.place.operand w, .immediate data)
  | .movImmReg w reg data => (.register reg w, .immediate data)
  | .movMemAcc w addr => (.register accumulator w, .memory [] addr)
  | .movAccMem w addr => (.memory [] addr, .register accumulator w)
  | .addRegMem d w reg rm => ((regMemDest d reg rm).operand w, (regMemSource d reg rm).operand w)
  | .addImmRegMem _ w rm data => (rm.place.operand w, .immediate data)
  | .addImmAcc w data => (.register accumulator w, .immediate data)
  | .subRegMem d w reg rm => ((regMemDest d reg rm).operand w, (regMemSource d reg rm).operand w)
  | .subImmRegMem _ w rm data => (rm.place.operand w, .immediate data)
  | .subImmAcc w data => (.register accumulator w, .immediate data)
  | .cmpRegMem d w reg rm => ((regMemDest d reg rm).operand w, (regMemSource d reg rm).operand w)
  | .cmpImmRegMem _ w rm data => (rm.place.operand w, .immediate data)
  | .cmpImmAcc w data => (.register accumulator w, .immediate data)
  | .jne disp8 => (.immediate (sext16 disp8), .none)

/-- The width of the operation; JNE has no `w` bit and is not wide (R43). -/
def Instr.width : Instr → Width
  | .movRegMem _ w _ _ => w
  | .movImmRegMem w _ _ => w
  | .movImmReg w _ _ => w
  | .movMemAcc w _ => w
  | .movAccMem w _ => w
  | .addRegMem _ w _ _ => w
  | .addImmRegMem _ w _ _ => w
  | .addImmAcc w _ => w
  | .subRegMem _ w _ _ => w
  | .subImmRegMem _ w _ _ => w
  | .subImmAcc w _ => w
  | .cmpRegMem _ w _ _ => w
  | .cmpImmRegMem _ w _ _ => w
  | .cmpImmAcc w _ => w
  | .jne _ => .byte

/-- The `Instruction` record the decoder delivers (R40 to R43, R120). -/
def Instr.record (i : Instr) : InstrRecord :=
  ⟨i.opcode, i.operands.1, i.operands.2, i.size, i.width.wide⟩

/-- Which variant an operand is (R41). -/
def Operand.variant : Operand → OperandVariant
  | .register _ _ => .register
  | .memory _ _ => .memory
  | .immediate _ => .immediate
  | .none => .none

/-- `Form(I)` of R141 and R146. -/
def Instr.form (i : Instr) : Form :=
  ⟨i.opcode, i.operands.1.variant, i.operands.2.variant, i.width.wide⟩

/-- A pattern's one question: any value where none is given. -/
def asksFor {α : Type} [DecidableEq α] (asked : Option α) (value : α) : Bool :=
  match asked with
  | none => true
  | some a => a == value

/-- A form meets a pattern when it meets each of its four questions (R146). -/
def FormPattern.accepts (p : FormPattern) (f : Form) : Bool :=
  asksFor p.opcode f.opcode && asksFor p.dst f.dst && asksFor p.src f.src && asksFor p.wide f.wide

/-! ### Decoding -/

/-- Why a decode fails (R110). -/
inductive DecodeError where
  | unknownOpcode
  | truncated
deriving DecidableEq, Repr

/-- The variants of the first-byte table (R88). -/
inductive TableEntry where
  | jne
  | movImmRegMem
  | movMemAcc
  | movAccMem
  | addImmAcc
  | subImmAcc
  | cmpImmAcc
  | movRegMem
  | addRegMem
  | subRegMem
  | cmpRegMem
  | arithImmRegMem
  | movImmReg
deriving DecidableEq, Repr

/-- A row of the first-byte table (R88). -/
structure TableRow where
  pattern : Byte
  mask : Byte
  entry : TableEntry
deriving DecidableEq, Repr

/-- The first-byte table, in its priority order (R88). -/
def firstByteTable : List TableRow :=
  [ ⟨0x75, 0xFF, .jne⟩,
    ⟨0xC6, 0xFE, .movImmRegMem⟩,
    ⟨0xA0, 0xFE, .movMemAcc⟩,
    ⟨0xA2, 0xFE, .movAccMem⟩,
    ⟨0x04, 0xFE, .addImmAcc⟩,
    ⟨0x2C, 0xFE, .subImmAcc⟩,
    ⟨0x3C, 0xFE, .cmpImmAcc⟩,
    ⟨0x88, 0xFC, .movRegMem⟩,
    ⟨0x00, 0xFC, .addRegMem⟩,
    ⟨0x28, 0xFC, .subRegMem⟩,
    ⟨0x38, 0xFC, .cmpRegMem⟩,
    ⟨0x80, 0xFC, .arithImmRegMem⟩,
    ⟨0xB0, 0xF0, .movImmReg⟩ ]

/-- A row recognises a first byte when `(b0 AND mask) = pattern` (R88). -/
def TableRow.recognises (row : TableRow) (b0 : Byte) : Bool := b0 &&& row.mask == row.pattern

/-- The first row that recognises the byte (R112). -/
def firstByteEntry (b0 : Byte) : Option TableEntry :=
  (firstByteTable.find? (·.recognises b0)).map (·.entry)

/-- What a part of the decoder answers: a value with the bytes after it, or the error. -/
abbrev Parse (α : Type) := Except DecodeError (α × List Byte)

/-- The next byte, or Truncated where the stream ends (R113). -/
def takeByte : List Byte → Parse Byte
  | [] => .error .truncated
  | b :: bs => .ok (b, bs)

/-- The next two bytes, low byte first (R55, R70). -/
def takeWord : List Byte → Parse Word
  | lo :: hi :: bs => .ok (wordOfBytes lo hi, bs)
  | _ => .error .truncated

/-- Go on with the value and the bytes after it, or pass the error on. -/
def andThen {α β : Type} (r : Parse α) (next : α → List Byte → Parse β) : Parse β :=
  match r with
  | .error e => .error e
  | .ok (a, bs) => next a bs

/-- Addressing-mode dispatch: the `rm` operand from `mod`, `rm` and the displacement bytes (R117). -/
def takeRmOperand (mod : Fin 4) (rm : RegField) (bs : List Byte) : Parse RmOperand :=
  match mod with
  | 0 =>
    match BaseIndex.ofField rm with
    | .bp => andThen (takeWord bs) fun addr bs => .ok (.direct addr, bs)
    | b => .ok (.mem b, bs)
  | 1 => andThen (takeByte bs) fun disp bs => .ok (.memDisp8 (BaseIndex.ofField rm) disp, bs)
  | 2 => andThen (takeWord bs) fun disp bs => .ok (.memDisp16 (BaseIndex.ofField rm) disp, bs)
  | 3 => .ok (.reg rm, bs)

/-- The immediate of the forms with no `s` bit (R92). -/
def takeData (w : Width) (bs : List Byte) : Parse Word :=
  match w with
  | .byte => andThen (takeByte bs) fun p bs => .ok (zext16 p, bs)
  | .word => takeWord bs

/-- The immediate of `100000sw` (R92). -/
def takeArithData (s : Bool) (w : Width) (bs : List Byte) : Parse Word :=
  match s, w with
  | true, .word => andThen (takeByte bs) fun p bs => .ok (sext16 p, bs)
  | _, _ => takeData w bs

/-- Format IR (R83): `w` is bit 3 and `reg` bits 2..0 of `b0`. -/
def decodeIR (b0 : Byte) (bs : List Byte) : Parse Instr :=
  let w := Width.ofBit (b0.getLsbD 3)
  andThen (takeData w bs) fun data bs => .ok (.movImmReg w (rmField b0) data, bs)

/-- Format IA (R85). -/
def decodeIA (form : Width → Word → Instr) (b0 : Byte) (bs : List Byte) : Parse Instr :=
  let w := Width.ofBit (b0.getLsbD 0)
  andThen (takeData w bs) fun data bs => .ok (form w data, bs)

/-- Format MA (R84): the address is two bytes for both widths. -/
def decodeMA (form : Width → Word → Instr) (b0 : Byte) (bs : List Byte) : Parse Instr :=
  andThen (takeWord bs) fun addr bs => .ok (form (Width.ofBit (b0.getLsbD 0)) addr, bs)

/-- Format RM (R81). -/
def decodeRM (form : Direction → Width → RegField → RmOperand → Instr) (b0 : Byte) (bs : List Byte) : Parse Instr :=
  let d := Direction.ofBit (b0.getLsbD 1)
  let w := Width.ofBit (b0.getLsbD 0)
  andThen (takeByte bs) fun b1 bs =>
    andThen (takeRmOperand (modField b1) (rmField b1) bs) fun rm bs => .ok (form d w (regField b1) rm, bs)

/-- Format IRM for MOV (R82): the extension must be 000 (R90), which is tested before the length (R114). -/
def decodeMovIRM (b0 : Byte) (bs : List Byte) : Parse Instr :=
  let w := Width.ofBit (b0.getLsbD 0)
  andThen (takeByte bs) fun b1 bs =>
    if regField b1 = 0 then
      andThen (takeRmOperand (modField b1) (rmField b1) bs) fun rm bs =>
        andThen (takeData w bs) fun data bs => .ok (.movImmRegMem w rm data, bs)
    else .error .unknownOpcode

/-- The form the opcode extension chooses in the arithmetic group (R90). -/
def arithForm (ext : RegField) : Option (Bool → Width → RmOperand → Word → Instr) :=
  match ext with
  | 0 => some .addImmRegMem
  | 5 => some .subImmRegMem
  | 7 => some .cmpImmRegMem
  | 1 | 2 | 3 | 4 | 6 => none

/-- Format IRM for ADD, SUB, CMP (R82, R90, R92). -/
def decodeArithIRM (b0 : Byte) (bs : List Byte) : Parse Instr :=
  let s := b0.getLsbD 1
  let w := Width.ofBit (b0.getLsbD 0)
  andThen (takeByte bs) fun b1 bs =>
    match arithForm (regField b1) with
    | none => .error .unknownOpcode
    | some form =>
      andThen (takeRmOperand (modField b1) (rmField b1) bs) fun rm bs =>
        andThen (takeArithData s w bs) fun data bs => .ok (form s w rm data, bs)

/-- Format J (R86). -/
def decodeJ (bs : List Byte) : Parse Instr :=
  andThen (takeByte bs) fun disp8 bs => .ok (.jne disp8, bs)

/-- The rest of an instruction whose first byte the table recognised (R121). -/
def decodeEntry (e : TableEntry) (b0 : Byte) (bs : List Byte) : Parse Instr :=
  match e with
  | .jne => decodeJ bs
  | .movImmRegMem => decodeMovIRM b0 bs
  | .movMemAcc => decodeMA .movMemAcc b0 bs
  | .movAccMem => decodeMA .movAccMem b0 bs
  | .addImmAcc => decodeIA .addImmAcc b0 bs
  | .subImmAcc => decodeIA .subImmAcc b0 bs
  | .cmpImmAcc => decodeIA .cmpImmAcc b0 bs
  | .movRegMem => decodeRM .movRegMem b0 bs
  | .addRegMem => decodeRM .addRegMem b0 bs
  | .subRegMem => decodeRM .subRegMem b0 bs
  | .cmpRegMem => decodeRM .cmpRegMem b0 bs
  | .arithImmRegMem => decodeArithIRM b0 bs
  | .movImmReg => decodeIR b0 bs

/-- One instruction from the front of a list of bytes, with the bytes after it, or the decode error: the checks in byte
order, R121 and R123. No byte at all is Truncated (R111). -/
def decode : List Byte → Parse Instr
  | [] => .error .truncated
  | b0 :: bs =>
    match firstByteEntry b0 with
    | none => .error .unknownOpcode
    | some e => decodeEntry e b0 bs

/-- The bytes the decoder may see at an offset: at most six, none past the end of the stream (R110, R111). -/
def window (stream : List Byte) (offset : Nat) : List Byte :=
  (stream.drop offset).take Config.maxInsnLen

/-- `decode_one(stream, offset)` (R110). -/
def decodeOne (stream : List Byte) (offset : Nat) : Except DecodeError Instr :=
  (decode (window stream offset)).map Prod.fst

/-- The stream walk (R125): from offset `o`, the instructions with their offsets, until `o` reaches the end of the stream or
a decode fails. The first argument bounds the number of instructions. -/
def walk (stream : List Byte) : Nat → Nat → Except DecodeError (List (Nat × Instr))
  | 0, _ => .ok []
  | fuel + 1, o =>
    if stream.length ≤ o then .ok []
    else
      match decodeOne stream o with
      | .error e => .error e
      | .ok i => (walk stream fuel (o + i.size)).map ((o, i) :: ·)

/-! ### Encoding -/

/-- The mode byte (R81, R82). -/
def modeByte (mod : BitVec 2) (reg rm : BitVec 3) : Byte := mod ++ reg ++ rm

/-- `mod` of an `rm` operand (R72). -/
def RmOperand.modBits : RmOperand → BitVec 2
  | .reg _ => 0b11
  | .mem _ => 0b00
  | .direct _ => 0b00
  | .memDisp8 _ _ => 0b01
  | .memDisp16 _ _ => 0b10

/-- `rm` of an `rm` operand (R73, R74). -/
def RmOperand.rmBits : RmOperand → BitVec 3
  | .reg r => r.bits
  | .mem b => b.bits
  | .direct _ => 0b110
  | .memDisp8 b _ => b.bits
  | .memDisp16 b _ => b.bits

/-- A word as its two bytes, low byte first (R55, R70). -/
def wordBytes (v : Word) : List Byte := [lowByte v, highByte v]

/-- The displacement bytes of an `rm` operand (R91). -/
def RmOperand.dispBytes : RmOperand → List Byte
  | .reg _ => []
  | .mem _ => []
  | .direct addr => wordBytes addr
  | .memDisp8 _ disp => [disp]
  | .memDisp16 _ disp => wordBytes disp

/-- The immediate bytes of the forms with no `s` bit (R92). -/
def dataBytes (w : Width) (data : Word) : List Byte :=
  match w with
  | .byte => [lowByte data]
  | .word => wordBytes data

/-- The immediate bytes of `100000sw` (R92). -/
def arithDataBytes (s : Bool) (w : Width) (data : Word) : List Byte :=
  match s, w with
  | false, .word => wordBytes data
  | _, _ => [lowByte data]

/-- The bytes of format RM after `op`, its six opcode bits (R81). -/
def encodeRM (op : BitVec 6) (d : Direction) (w : Width) (reg : RegField) (rm : RmOperand) : List Byte :=
  (op ++ d.bit ++ w.bit) :: modeByte rm.modBits reg.bits rm.rmBits :: rm.dispBytes

/-- The bytes of the arithmetic IRM form whose opcode extension is `ext` (R82, R90). -/
def encodeArithIRM (ext : BitVec 3) (s : Bool) (w : Width) (rm : RmOperand) (data : Word) : List Byte :=
  ((0b100000#6 : BitVec 6) ++ BitVec.ofBool s ++ w.bit) ::
    modeByte rm.modBits ext rm.rmBits :: (rm.dispBytes ++ arithDataBytes s w data)

/-- The bytes of format IA after `op`, its seven opcode bits (R85). -/
def encodeIA (op : BitVec 7) (w : Width) (data : Word) : List Byte :=
  (op ++ w.bit) :: dataBytes w data

/-- The bytes of an instruction in stream order (R80 to R86). -/
def encode : Instr → List Byte
  | .movRegMem d w reg rm => encodeRM 0b100010 d w reg rm
  | .movImmRegMem w rm data =>
    ((0b1100011#7 : BitVec 7) ++ w.bit) :: modeByte rm.modBits 0b000 rm.rmBits :: (rm.dispBytes ++ dataBytes w data)
  | .movImmReg w reg data => ((0b1011#4 : BitVec 4) ++ w.bit ++ reg.bits) :: dataBytes w data
  | .movMemAcc w addr => ((0b1010000#7 : BitVec 7) ++ w.bit) :: wordBytes addr
  | .movAccMem w addr => ((0b1010001#7 : BitVec 7) ++ w.bit) :: wordBytes addr
  | .addRegMem d w reg rm => encodeRM 0b000000 d w reg rm
  | .addImmRegMem s w rm data => encodeArithIRM 0b000 s w rm data
  | .addImmAcc w data => encodeIA 0b0000010 w data
  | .subRegMem d w reg rm => encodeRM 0b001010 d w reg rm
  | .subImmRegMem s w rm data => encodeArithIRM 0b101 s w rm data
  | .subImmAcc w data => encodeIA 0b0010110 w data
  | .cmpRegMem d w reg rm => encodeRM 0b001110 d w reg rm
  | .cmpImmRegMem s w rm data => encodeArithIRM 0b111 s w rm data
  | .cmpImmAcc w data => encodeIA 0b0011110 w data
  | .jne disp8 => [0b01110101, disp8]

/-- The bytes of a sequence of instructions, one after the other with no gap (R70, R125). -/
def encodeAll (is : List Instr) : List Byte := is.flatMap encode

/-- The offset of each instruction of a sequence whose first one stands at `o`, with the instruction. -/
def layout : Nat → List Instr → List (Nat × Instr)
  | _, [] => []
  | o, i :: is => (o, i) :: layout (o + i.size) is

/-! ### Words of the opcode table -/

/-- The bytes of a word of spec/opcode_table.json in stream order, six of them, zeros after the given bits. The table numbers
a row's bits over `(b0 << 8) | b1`, so `b0` is bits 15..8 and `b1` bits 7..0; its rows have no further bits, and bytes past
the second are taken upwards from bit 16. A word of eight bits or fewer is `b0` alone. -/
def tableBytes (nbits w : Nat) : List Byte :=
  let v := w % 2 ^ nbits
  let at_ (lo : Nat) : Byte := BitVec.ofNat 8 (v >>> lo)
  if nbits ≤ 8 then [at_ 0, 0, 0, 0, 0, 0]
  else [at_ 8, at_ 0, at_ 16, at_ 24, at_ 32, at_ 40]

/-- What the decoder reads from a word of the opcode table. -/
def decodeTableWord (nbits w : Nat) : Option Instr :=
  match decode (tableBytes nbits w) with
  | .ok (i, _) => some i
  | .error _ => none

end Sys2Proof
end

