-- ==== Sys2Proof/Machine/State.lean ====
section
/-! DEFINITION. The state of one engine instance (R20, 10_state.md), the reasons a run stops, and the state after reset
(R36; R230, 70_reset_and_hazards.md). -/

namespace Sys2Proof.Machine

/-- The three faults of the block (R200). Each is carried by the status of a NEXT state (`Status.faulted`): the entry the
spec describes is `status <- Faulted(kind, offset)` with nothing else changed (R205), so no step ends in `Outcome.fault`. -/
inductive Fault where
  /-- The bytes at `ip` are none of the fifteen forms (R201). Raised by the engine at fetch. Safe: the run ends, and its
  status says so. -/
  | unknownOpcode
  /-- The stream ends before the instruction does (R202). Raised by the engine at fetch. Safe, likewise. -/
  | truncated
  /-- The decoded form is a member of UNSUPPORTED_FORMS (R203). Raised by the engine after decode. Safe, likewise; never
  raised with the default set, which is empty. -/
  | unsupportedOperation
deriving DecidableEq, Repr

/-- Why a step gives no meaning. -/
inductive Refusal where
  /-- An instruction with no meaning yet. Raised by no arm of this model: every instruction has its meaning. Safe. -/
  | notModelled (mnemonic : String)
  /-- The stream is longer than STREAM_MAX; the spec has a model refuse it (D13, U1). Raised by the engine before fetch.
  Safe: nothing is claimed of such a run. -/
  | streamTooLong
deriving DecidableEq, Repr

/-- The run status (R33). -/
inductive Status where
  | running
  | halted
  | faulted (kind : Fault) (offset : Word)
deriving DecidableEq, Repr

/-- What a cell of data memory that nothing has written reads as: the reset value (R36). -/
def unlistedByte : Byte := 0

/-- Data memory: the cells that differ from `unlistedByte`, by address. `Memory.wf` is its canonical form. -/
abbrev Memory := List Host.Cell

/-- The architectural state, R20: `x[0]`..`x[7]`, `ZF`, `SF`, `ip`, `Mem`, `status`. The last field is the run's parameter
`stream`, with `L` its length (R50), which no step changes. -/
structure State where
  regs : Vector Word 8
  zf : Bool
  sf : Bool
  ip : Word
  mem : Memory
  status : Status
  stream : List Byte
deriving DecidableEq, Repr

/-- The state after reset: registers, flags, `ip` and memory zero, `status` Running (R36, R230). No stream has been
supplied, so the stream is empty. -/
def State.reset : State where
  regs := Vector.replicate 8 0
  zf := false
  sf := false
  ip := 0
  mem := []
  status := .running
  stream := []

end Sys2Proof.Machine
end

