-- ==== Sys2Proof/Machine/Ops.lean ====
section
/-! DEFINITION. The operations over registers, memory and status: RegRead and RegWrite (R24, R25), MemRead and MemWrite
(R56, R57), raising a fault (R205), the normal halt (R144), advancing `ip` (R141), and supplying a stream (R233). -/

namespace Sys2Proof.Machine

/-! ### Registers -/

/-- `x[i]` (R21). -/
def State.reg (s : State) (i : RegField) : Word := s.regs[i.val]

/-- `x[i] <- v` (R21). -/
def State.setReg (s : State) (i : RegField) (v : Word) : State := { s with regs := s.regs.set i.val v }

/-- A byte half of a cell (R23). -/
inductive Half where
  | low
  | high
deriving DecidableEq, Repr

/-- The half of a word: H is bits 15..8, L is bits 7..0 (R26). -/
def halfOf (h : Half) (v : Word) : Byte :=
  match h with
  | .low => lowByte v
  | .high => highByte v

/-- The word with one half replaced (R25). -/
def withHalf (h : Half) (v : Word) (b : Byte) : Word :=
  match h with
  | .low => wordOfBytes b (highByte v)
  | .high => wordOfBytes (lowByte v) b

/-- The cell a byte name stands for: `i` for 0..3, `i - 4` for 4..7 (R23). -/
def byteCell (i : RegField) : RegField := ⟨i.val % 4, by omega⟩

/-- The half a byte name stands for: low for 0..3, high for 4..7 (R23). -/
def byteHalf (i : RegField) : Half := if i.val < 4 then .low else .high

/-- `RegRead(i, w)` (R24). -/
def State.regRead (s : State) (i : RegField) (w : Width) : BitVec w.bits :=
  match w with
  | .byte => halfOf (byteHalf i) (s.reg (byteCell i))
  | .word => s.reg i

/-- `RegWrite(i, w, v)` (R25). -/
def State.regWrite (s : State) (i : RegField) (w : Width) (v : BitVec w.bits) : State :=
  match w with
  | .byte => s.setReg (byteCell i) (withHalf (byteHalf i) (s.reg (byteCell i)) v)
  | .word => s.setReg i v

/-! ### Data memory -/

/-- The canonical form: addresses strictly rising, no entry that equals `unlistedByte`, every address a cell of `Mem`
(R52). -/
def Memory.wf (m : Memory) : Bool :=
  decide (m.Pairwise fun c d => c.1 < d.1) && m.all fun c => c.2 != unlistedByte && decide (c.1 < Config.memSize)

/-- `Mem[a]` (R52). -/
def Memory.read (m : Memory) (a : Nat) : Byte :=
  match m with
  | [] => unlistedByte
  | c :: rest => if c.1 = a then c.2 else Memory.read rest a

/-- The memory with no entry before `a` added: `(a, v)` in front, unless `v` is what an unlisted cell reads as. -/
def Memory.consByte (a : Nat) (v : Byte) (m : Memory) : Memory :=
  if v = unlistedByte then m else (a, v) :: m

/-- `Mem[a] <- v` (R52), in canonical form. -/
def Memory.write (m : Memory) (a : Nat) (v : Byte) : Memory :=
  match m with
  | [] => Memory.consByte a v []
  | c :: rest =>
    if a < c.1 then Memory.consByte a v (c :: rest)
    else if c.1 = a then Memory.consByte a v rest
    else c :: Memory.write rest a v

/-- `Mem[a]` of a state. -/
def State.memByte (s : State) (a : Nat) : Byte := s.mem.read a

/-- `Mem[a] <- v` in a state. -/
def State.setMemByte (s : State) (a : Nat) (v : Byte) : State := { s with mem := s.mem.write a v }

/-- `MemRead(addr, n)`, `n` the width in bytes: low byte at `addr`, high byte at `addr + 1`, which is not wrapped
(R56, R54). -/
def State.memRead (s : State) (addr : Word) (w : Width) : BitVec w.bits :=
  match w with
  | .byte => s.memByte addr.toNat
  | .word => wordOfBytes (s.memByte addr.toNat) (s.memByte (addr.toNat + 1))

/-- `MemWrite(addr, n, v)` (R57). -/
def State.memWrite (s : State) (addr : Word) (w : Width) (v : BitVec w.bits) : State :=
  match w with
  | .byte => s.setMemByte addr.toNat v
  | .word => (s.setMemByte addr.toNat (lowByte v)).setMemByte (addr.toNat + 1) (highByte v)

/-! ### Flags, `ip`, status -/

/-- Write both flags (R29). -/
def State.setFlags (s : State) (zf sf : Bool) : State := { s with zf := zf, sf := sf }

/-- `ip <- trunc_16(ip + d)` (R31). -/
def State.addIp (s : State) (d : Word) : State := { s with ip := s.ip + d }

/-- `ip <- trunc_16(ip + I.size_bytes)` (R141). -/
def State.advance (s : State) (i : Instr) : State := s.addIp (BitVec.ofNat 16 i.size)

/-- `raise <Fault>(ip)`, the one way a fault is taken: the status becomes `Faulted(kind, ip)` and nothing else changes;
no register saves anything, and `ip` stays at the faulting instruction (R205, R206). There is no return from it (R208). -/
def State.raise (s : State) (kind : Fault) : State := { s with status := .faulted kind s.ip }

/-- The normal end of a run (R143). -/
def State.halt (s : State) : State := { s with status := .halted }

/-- The number the spec gives a fault (R200, D18). -/
def Fault.code : Fault → Nat
  | .unknownOpcode => 1
  | .truncated => 2
  | .unsupportedOperation => 3

/-- The number of a status: its fault's, or 0 where there is no fault, in a running engine and after a normal halt
(R200, D18; R33). -/
def Status.code : Status → Nat
  | .running => 0
  | .halted => 0
  | .faulted kind _ => kind.code

/-- The fault a decode error raises (R200). -/
def faultOfDecode : DecodeError → Fault
  | .unknownOpcode => .unknownOpcode
  | .truncated => .truncated

/-! ### The stream -/

/-- The state a run of a stream starts in: reset, and the stream the host supplies (R140, R233). -/
def State.launch (stream : List Byte) : State := { State.reset with stream := stream }

/-- The stream with `bytes` standing at offset `o`, zeros before it where it was shorter, cut at STREAM_MAX. -/
def overlay (stream : List Byte) (o : Nat) (bytes : List Byte) : List Byte :=
  (stream.take o ++ List.replicate (o - stream.length) 0 ++ bytes ++ stream.drop (o + bytes.length)).take
    Config.streamMax

end Sys2Proof.Machine
end

