-- ==== Sys2Proof/Machine/Operands.lean ====
section
/-! DEFINITION. Effective address (R148), reading and writing operands (R150, R151), and the copy that every MOV form is
(R160). -/

namespace Sys2Proof.Machine

/-- `EA(m)`: the exact sum of the base cells and the displacement, modulo 2^16 (R148). -/
def State.ea (s : State) (baseTerms : List RegField) (displacement : Word) : Word :=
  BitVec.ofNat 16 ((baseTerms.map fun c => (s.reg c).toNat).sum + displacement.toNat)

/-- `ReadOp` of a register or a memory operand (R150). -/
def State.readPlace (s : State) (w : Width) (p : Place) : BitVec w.bits :=
  match p with
  | .register i => s.regRead i w
  | .memory baseTerms disp => s.memRead (s.ea baseTerms disp) w

/-- `ReadOp` of an immediate: `v[15:0]` or `v[7:0]` (R150). -/
def immediateAt (w : Width) (v : Word) : BitVec w.bits :=
  match w with
  | .byte => lowByte v
  | .word => v

/-- `ReadOp` (R150). -/
def State.readSource (s : State) (w : Width) (src : Source) : BitVec w.bits :=
  match src with
  | .place p => s.readPlace w p
  | .immediate v => immediateAt w v

/-- `WriteOp` (R151). The address is formed from the registers of `s`, which is the state before the instruction (R152). -/
def State.writePlace (s : State) (w : Width) (p : Place) (v : BitVec w.bits) : State :=
  match p with
  | .register i => s.regWrite i w v
  | .memory baseTerms disp => s.memWrite (s.ea baseTerms disp) w v

/-- MOV: copy the source's value to the destination, no flag written (R160). -/
def State.copy (s : State) (w : Width) (dst : Place) (src : Source) : State :=
  s.writePlace w dst (s.readSource w src)

end Sys2Proof.Machine
end

