-- ==== Sys2Proof/Machine/Flags.lean ====
section
/-! DEFINITION. The ALU and the flag function (R170 to R173): one operation for the nine ADD, SUB and CMP forms. -/

namespace Sys2Proof.Machine

/-- The operation of a form (R170). -/
inductive AluOp where
  | add
  | sub
  | cmp
deriving DecidableEq, Repr

/-- `t`: the exact sum or difference, destination minus source (R170). -/
def AluOp.exact (op : AluOp) (a b : Int) : Int :=
  match op with
  | .add => a + b
  | .sub => a - b
  | .cmp => a - b

/-- `r = trunc_n(t)` (R170). -/
def AluOp.result {n : Nat} (op : AluOp) (a b : BitVec n) : BitVec n :=
  BitVec.ofInt n (op.exact a.toNat b.toNat)

/-- Whether the form writes its result back: ADD and SUB do, CMP does not (R170). -/
def AluOp.writesBack : AluOp → Bool
  | .add => true
  | .sub => true
  | .cmp => false

/-- `ZF`: the result is zero (R172). -/
def zeroFlag {n : Nat} (r : BitVec n) : Bool := r == 0#n

/-- `SF`: bit n-1 of the result (R172). -/
def signFlag {n : Nat} (r : BitVec n) : Bool := r.msb

/-- The ALU operation (R170): both operands read first, at the instruction's width; the result written back unless the
form is CMP; both flags from the result alone. -/
def State.arith (s : State) (op : AluOp) (w : Width) (dst : Place) (src : Source) : State :=
  let r := op.result (s.readPlace w dst) (s.readSource w src)
  let written := if op.writesBack then s.writePlace w dst r else s
  written.setFlags (zeroFlag r) (signFlag r)

end Sys2Proof.Machine
end

