-- ==== Sys2Proof/Machine/Add.lean ====
section
/-! DEFINITION. The three ADD forms (43_add_sub_cmp.md). `ip` has been advanced when a meaning runs (R141). -/

namespace Sys2Proof.Machine

/-- ADD_REG_MEM (R174). -/
def execAddRegMem (d : Direction) (w : Width) (reg : RegField) (rm : RmOperand) (s : State) :
    Host.Outcome State Fault Refusal :=
  .next (s.arith .add w (regMemDest d reg rm) (regMemSource d reg rm))

/-- ADD_IMM_REG_MEM (R175). The bit `s` of the encoding has done its work in the decoder, which assembles `data` (R92). -/
def execAddImmRegMem (_sBit : Bool) (w : Width) (rm : RmOperand) (data : Word) (s : State) :
    Host.Outcome State Fault Refusal :=
  .next (s.arith .add w rm.place (.immediate data))

/-- ADD_IMM_ACC (R176). -/
def execAddImmAcc (w : Width) (data : Word) (s : State) : Host.Outcome State Fault Refusal :=
  .next (s.arith .add w (.register accumulator) (.immediate data))

end Sys2Proof.Machine
end

