-- ==== Sys2Proof/Machine/Cmp.lean ====
section
/-! DEFINITION. The three CMP forms (43_add_sub_cmp.md). They write no result (R170). `ip` has been advanced when a meaning runs (R141). -/

namespace Sys2Proof.Machine

/-- CMP_REG_MEM (R180). -/
def execCmpRegMem (d : Direction) (w : Width) (reg : RegField) (rm : RmOperand) (s : State) :
    Host.Outcome State Fault Refusal :=
  .next (s.arith .cmp w (regMemDest d reg rm) (regMemSource d reg rm))

/-- CMP_IMM_REG_MEM (R181). The bit `s` of the encoding has done its work in the decoder, which assembles `data` (R92). -/
def execCmpImmRegMem (_sBit : Bool) (w : Width) (rm : RmOperand) (data : Word) (s : State) :
    Host.Outcome State Fault Refusal :=
  .next (s.arith .cmp w rm.place (.immediate data))

/-- CMP_IMM_ACC (R182). -/
def execCmpImmAcc (w : Width) (data : Word) (s : State) : Host.Outcome State Fault Refusal :=
  .next (s.arith .cmp w (.register accumulator) (.immediate data))

end Sys2Proof.Machine
end

