-- ==== Sys2Proof/Machine/Jump.lean ====
section
/-! DEFINITION. JNE (44_jne.md). `ip` has been advanced past the jump when the meaning runs (R141, R190). -/

namespace Sys2Proof.Machine

/-- JNE (R190): if `ZF = 0`, `ip <- trunc_16(ip + sext_16(disp8))`; else fall through. -/
def execJne (disp8 : Byte) (s : State) : Host.Outcome State Fault Refusal :=
  match s.zf with
  | true => .next s
  | false => .next (s.addIp (sext16 disp8))

end Sys2Proof.Machine
end

