-- ==== Sys2Proof/Machine/Mov.lean ====
section
/-! DEFINITION. The five MOV forms (42_mov.md). `ip` has been advanced when a meaning runs (R141). -/

namespace Sys2Proof.Machine

/-- MOV_REG_MEM (R161). -/
def execMovRegMem (d : Direction) (w : Width) (reg : RegField) (rm : RmOperand) (s : State) :
    Host.Outcome State Fault Refusal :=
  .next (s.copy w (regMemDest d reg rm) (regMemSource d reg rm))

/-- MOV_IMM_REG_MEM (R162). -/
def execMovImmRegMem (w : Width) (rm : RmOperand) (data : Word) (s : State) : Host.Outcome State Fault Refusal :=
  .next (s.copy w rm.place (.immediate data))

/-- MOV_IMM_REG (R163). -/
def execMovImmReg (w : Width) (reg : RegField) (data : Word) (s : State) : Host.Outcome State Fault Refusal :=
  .next (s.copy w (.register reg) (.immediate data))

/-- MOV_MEM_ACC (R164). -/
def execMovMemAcc (w : Width) (addr : Word) (s : State) : Host.Outcome State Fault Refusal :=
  .next (s.copy w (.register accumulator) (.place (.memory [] addr)))

/-- MOV_ACC_MEM (R165). -/
def execMovAccMem (w : Width) (addr : Word) (s : State) : Host.Outcome State Fault Refusal :=
  .next (s.copy w (.memory [] addr) (.place (.register accumulator)))

end Sys2Proof.Machine
end

