-- ==== Sys2Proof/Machine/Sub.lean ====
section
/-! DEFINITION. The three SUB forms (43_add_sub_cmp.md). `ip` has been advanced when a meaning runs (R141). -/

namespace Sys2Proof.Machine

/-- SUB_REG_MEM (R177). -/
def execSubRegMem (d : Direction) (w : Width) (reg : RegField) (rm : RmOperand) (s : State) :
    Host.Outcome State Fault Refusal :=
  .next (s.arith .sub w (regMemDest d reg rm) (regMemSource d reg rm))

/-- SUB_IMM_REG_MEM (R178). The bit `s` of the encoding has done its work in the decoder, which assembles `data` (R92). -/
def execSubImmRegMem (_sBit : Bool) (w : Width) (rm : RmOperand) (data : Word) (s : State) :
    Host.Outcome State Fault Refusal :=
  .next (s.arith .sub w rm.place (.immediate data))

/-- SUB_IMM_ACC (R179). -/
def execSubImmAcc (w : Width) (data : Word) (s : State) : Host.Outcome State Fault Refusal :=
  .next (s.arith .sub w (.register accumulator) (.immediate data))

end Sys2Proof.Machine
end

