-- ==== Sys2Proof/Machine/Dispatch.lean ====
section
/-! DEFINITION. `Execute(I)`: the meaning of each instruction (R145), run after `ip` has been advanced. -/

namespace Sys2Proof.Machine

def exec (i : Instr) (s : State) : Host.Outcome State Fault Refusal :=
  match i with
  -- 42_mov.md
  | .movRegMem d w reg rm => Sys2Proof.Machine.execMovRegMem d w reg rm s
  | .movImmRegMem w rm data => Sys2Proof.Machine.execMovImmRegMem w rm data s
  | .movImmReg w reg data => Sys2Proof.Machine.execMovImmReg w reg data s
  | .movMemAcc w addr => Sys2Proof.Machine.execMovMemAcc w addr s
  | .movAccMem w addr => Sys2Proof.Machine.execMovAccMem w addr s
  -- 43_add_sub_cmp.md
  | .addRegMem d w reg rm => Sys2Proof.Machine.execAddRegMem d w reg rm s
  | .addImmRegMem sBit w rm data => Sys2Proof.Machine.execAddImmRegMem sBit w rm data s
  | .addImmAcc w data => Sys2Proof.Machine.execAddImmAcc w data s
  | .subRegMem d w reg rm => Sys2Proof.Machine.execSubRegMem d w reg rm s
  | .subImmRegMem sBit w rm data => Sys2Proof.Machine.execSubImmRegMem sBit w rm data s
  | .subImmAcc w data => Sys2Proof.Machine.execSubImmAcc w data s
  | .cmpRegMem d w reg rm => Sys2Proof.Machine.execCmpRegMem d w reg rm s
  | .cmpImmRegMem sBit w rm data => Sys2Proof.Machine.execCmpImmRegMem sBit w rm data s
  | .cmpImmAcc w data => Sys2Proof.Machine.execCmpImmAcc w data s
  -- 44_jne.md
  | .jne disp8 => Sys2Proof.Machine.execJne disp8 s

end Sys2Proof.Machine
end

