-- ==== Sys2Proof/Machine/Engine.lean ====
section
/-! DEFINITION. One step of the engine over any set of unsupported forms (R141, R143, R146), which `step` runs with the
default set. -/

namespace Sys2Proof.Machine

/-- `Form(I) in UNSUPPORTED_FORMS` (R141, R146). -/
def isUnsupported (forms : List FormPattern) (i : Instr) : Bool := forms.any (·.accepts i.form)

/-- What a running engine does once `ip < L`: decode at `ip`; on an error, or for an unsupported form, fault with nothing
else changed; else advance `ip` first and then apply the semantics (R141). -/
def fetchAndRun (forms : List FormPattern) (s : State) : Host.Outcome State Fault Refusal :=
  match decodeOne s.stream s.ip.toNat with
  | .error e => .next (s.raise (faultOfDecode e))
  | .ok i => if isUnsupported forms i then .next (s.raise .unsupportedOperation) else exec i (s.advance i)

/-- One step (R141). A stopped engine does not change; a stream over STREAM_MAX is refused (D13, U1); `ip >= L` halts. -/
def engineStep (forms : List FormPattern) (s : State) : Host.Outcome State Fault Refusal :=
  match s.status with
  | .halted => .next s
  | .faulted _ _ => .next s
  | .running =>
    if Config.streamMax < s.stream.length then .refused .streamTooLong
    else if s.stream.length ≤ s.ip.toNat then .next s.halt
    else fetchAndRun forms s

end Sys2Proof.Machine
end

