-- ==== Sys2Proof/Machine/Step.lean ====
section
/-! DEFINITION. One step of the machine, and where the host stores an instruction for the next step to fetch. -/

namespace Sys2Proof.Machine

/-- One step with the default, empty set of unsupported forms (R141, R146). -/
def step : State → Host.Outcome State Fault Refusal := engineStep Config.unsupportedForms

/-- The state with a word of the opcode table standing in the stream at `ip`, and the engine running: the host's supply of a
stream (R233) as far as the next fetch needs it. -/
def State.withFetchWord (s : State) (nbits w : Nat) : State :=
  { s with status := .running, stream := overlay s.stream s.ip.toNat (tableBytes nbits w) }

end Sys2Proof.Machine
end

