-- ==== Sys2Proof/Safety.lean ====
section
/-! DEFINITION. The terms claims use: what a destination covers, what an instruction leaves alone, what every state of a run
satisfies, and what a run is. -/

namespace Sys2Proof

open Machine

/-! ### What a destination covers -/

/-- The register byte halves a destination of width `w` covers (R25, R151). -/
def Place.coversHalf (p : Place) (w : Width) (c : RegField) (h : Half) : Prop :=
  match p, w with
  | .register i, .byte => c = byteCell i ∧ h = byteHalf i
  | .register i, .word => c = i
  | .memory _ _, _ => False

/-- The cells of data memory a destination of width `w` covers: the bytes at the effective address formed in the state
before the instruction (R57, R151, R152). -/
def Place.coversCell (p : Place) (w : Width) (s : Machine.State) (a : Nat) : Prop :=
  match p, w with
  | .register _, _ => False
  | .memory baseTerms disp, .byte => a = (s.ea baseTerms disp).toNat
  | .memory baseTerms disp, .word =>
    a = (s.ea baseTerms disp).toNat ∨ a = (s.ea baseTerms disp).toNat + 1

/-! ### Families -/

/-- The five MOV forms. -/
def Instr.isMov (i : Instr) : Bool :=
  match i with
  | .movRegMem _ _ _ _ | .movImmRegMem _ _ _ | .movImmReg _ _ _ | .movMemAcc _ _ | .movAccMem _ _ => true
  | .addRegMem _ _ _ _ | .addImmRegMem _ _ _ _ | .addImmAcc _ _ => false
  | .subRegMem _ _ _ _ | .subImmRegMem _ _ _ _ | .subImmAcc _ _ => false
  | .cmpRegMem _ _ _ _ | .cmpImmRegMem _ _ _ _ | .cmpImmAcc _ _ => false
  | .jne _ => false

/-- The nine ADD, SUB and CMP forms. -/
def Instr.isArith (i : Instr) : Bool :=
  match i with
  | .movRegMem _ _ _ _ | .movImmRegMem _ _ _ | .movImmReg _ _ _ | .movMemAcc _ _ | .movAccMem _ _ => false
  | .addRegMem _ _ _ _ | .addImmRegMem _ _ _ _ | .addImmAcc _ _ => true
  | .subRegMem _ _ _ _ | .subImmRegMem _ _ _ _ | .subImmAcc _ _ => true
  | .cmpRegMem _ _ _ _ | .cmpImmRegMem _ _ _ _ | .cmpImmAcc _ _ => true
  | .jne _ => false

end Sys2Proof

namespace Sys2Proof.Machine

/-! ### Frames -/

/-- One byte half of a register cell. -/
def State.regHalf (s : State) (c : RegField) (h : Half) : Byte := halfOf h (s.reg c)

/-- Every register byte half outside the destination is as before. -/
def SameRegsOutside (p : Place) (w : Width) (s t : State) : Prop :=
  ∀ c h, ¬ p.coversHalf w c h → t.regHalf c h = s.regHalf c h

/-- Every byte of data memory outside the destination is as before. -/
def SameMemOutside (p : Place) (w : Width) (s t : State) : Prop :=
  ∀ a, ¬ p.coversCell w s a → t.memByte a = s.memByte a

/-- Every register is as before. -/
def SameRegs (s t : State) : Prop := ∀ c, t.reg c = s.reg c

/-- Every byte of data memory is as before. -/
def SameMem (s t : State) : Prop := ∀ a, t.memByte a = s.memByte a

/-- Both flags are as before. -/
def SameFlags (s t : State) : Prop := t.zf = s.zf ∧ t.sf = s.sf

/-- `ip`, the run status and the stream are as before. -/
def SameControl (s t : State) : Prop := t.ip = s.ip ∧ t.status = s.status ∧ t.stream = s.stream

/-- The outcome is a next state that satisfies `P`. -/
def AnswersNext (o : Host.Outcome State Fault Refusal) (P : State → Prop) : Prop := ∃ t, o = .next t ∧ P t

/-- What a MOV does (R160): the destination then holds the source's old value; both flags, and everything outside the
destination, are as before. -/
def Copies (w : Width) (dst : Place) (value : BitVec w.bits) (s t : State) : Prop :=
  t.readPlace w dst = value ∧ SameFlags s t ∧ SameRegsOutside dst w s t ∧ SameMemOutside dst w s t ∧ SameControl s t

/-- Both flags say what the n-bit result `r` is (R172): `ZF` that it is zero, `SF` that it is negative read as signed. -/
def FlagsTell {n : Nat} (r : BitVec n) (t : State) : Prop := (t.zf = true ↔ r.toNat = 0) ∧ (t.sf = true ↔ r.toInt < 0)

/-- What an ADD or SUB with result `r` does (R170): the destination holds `r`, the flags tell `r`, everything outside the
destination is as before. -/
def Stores (w : Width) (dst : Place) (r : BitVec w.bits) (s t : State) : Prop :=
  t.readPlace w dst = r ∧ FlagsTell r t ∧ SameRegsOutside dst w s t ∧ SameMemOutside dst w s t ∧ SameControl s t

/-- What a CMP with result `r` does (R170): the flags tell `r` and everything else is as before. -/
def Compares (w : Width) (r : BitVec w.bits) (s t : State) : Prop :=
  FlagsTell r t ∧ SameRegs s t ∧ SameMem s t ∧ SameControl s t

/-- `r` is the sum of `a` and `b` modulo 2^n (R171). -/
def IsSum {n : Nat} (a b r : BitVec n) : Prop := r.toNat = (a.toNat + b.toNat) % 2 ^ n

/-- `r` is the difference `a - b` modulo 2^n (R171). -/
def IsDifference {n : Nat} (a b r : BitVec n) : Prop := (r.toNat : Int) = ((a.toNat : Int) - b.toNat) % 2 ^ n

/-! ### What every state of a run satisfies -/

/-- The stream is one a run may have (R50). -/
def State.LegalStream (s : State) : Prop := s.stream.length ≤ Config.streamMax

/-- The engine will fetch and decode on its next step (R141). -/
def State.Fetches (s : State) : Prop := s.status = .running ∧ s.LegalStream ∧ s.ip.toNat < s.stream.length

/-- The cells no effective address reaches hold the reset value (R54). -/
def State.HighCellsUntouched (s : State) : Prop := ∀ a, 0x10000 < a → s.memByte a = unlistedByte

/-- `ZF` and `SF` are not both set (R172). -/
def State.FlagsExclusive (s : State) : Prop := ¬ (s.zf = true ∧ s.sf = true)

/-- A halted engine has `ip >= L`; a faulted one has stopped at the recorded offset, inside the stream (R33, R144, R206). -/
def State.StatusFits (s : State) : Prop :=
  match s.status with
  | .running => True
  | .halted => s.stream.length ≤ s.ip.toNat
  | .faulted _ offset => offset = s.ip ∧ s.ip.toNat < s.stream.length

/-- The invariant of a run. -/
structure State.Inv (s : State) : Prop where
  legalStream : s.LegalStream
  memoryCanonical : s.mem.wf
  highCellsUntouched : s.HighCellsUntouched
  flagsExclusive : s.FlagsExclusive
  statusFits : s.StatusFits

/-! ### Runs -/

/-- `t` is the state after `k` steps from `s` (R140). -/
def Reaches (k : Nat) (s t : State) : Prop := Host.Core.run Sys2Proof.core k s = .next t

/-- The run has ended (R144). -/
def State.Ended (s : State) : Prop := s.status ≠ .running

/-- Replace `SF` alone. -/
def State.withSf (s : State) (b : Bool) : State := s.setFlags s.zf b

/-- The two states differ in `SF` at most. -/
def SameButSf (s t : State) : Prop := t = s.withSf t.sf

end Sys2Proof.Machine
end

