-- ==== Sys2Proof/Certificates/Slice0/Obligations.lean ====
section
/-! DEFINITION. The statements for the provers, from the numbered rules of spec/. "D<n>" is a row of 92_eei_decisions.md, the
spec's own decision where its source is silent; a statement that rests on one is listed as derived. -/

open Sys2Proof Sys2Proof.Machine

/-! ### Reset and the register file -/

/-- R230, R36: what reset leaves. The zeros are the spec's decision D20. -/
def Obligations.ResetLeavesZeroState : Prop :=
  (∀ c, State.reset.reg c = 0) ∧ State.reset.zf = false ∧ State.reset.sf = false ∧ State.reset.ip = 0 ∧
  (∀ a, State.reset.memByte a = 0) ∧ State.reset.status = .running

/-- R24: a word read gives the cell; a byte read gives bits 7..0 of cell `i` for 0..3 and bits 15..8 of cell `i - 4` for
4..7; reading AX reflects both halves. -/
def Obligations.RegReadReadsCellOrHalf : Prop :=
  ∀ (s : State) (i : RegField),
    s.regRead i .word = s.reg i ∧
    (i.val ≤ 3 → (s.regRead i .byte).toNat = (s.reg i).toNat % 256) ∧
    (∀ c : RegField, c.val + 4 = i.val → (s.regRead i .byte).toNat = (s.reg c).toNat / 256) ∧
    (s.regRead 0 .word).toNat = (s.regRead 4 .byte).toNat * 256 + (s.regRead 0 .byte).toNat

/-- R25: a word write replaces one cell; a byte write replaces the named half of one cell and leaves its other half; no other
cell changes, nor does anything else of the state. -/
def Obligations.RegWriteReplacesCellOrHalf : Prop :=
  ∀ (s : State) (i : RegField),
    (∀ v : Word, (s.regWrite i .word v).reg i = v ∧ ∀ c, c ≠ i → (s.regWrite i .word v).reg c = s.reg c) ∧
    (∀ v : Byte, i.val ≤ 3 →
      ((s.regWrite i .byte v).reg i).toNat = (s.reg i).toNat / 256 * 256 + v.toNat ∧
      ∀ c, c ≠ i → (s.regWrite i .byte v).reg c = s.reg c) ∧
    (∀ (v : Byte) (k : RegField), k.val + 4 = i.val →
      ((s.regWrite i .byte v).reg k).toNat = v.toNat * 256 + (s.reg k).toNat % 256 ∧
      ∀ c, c ≠ k → (s.regWrite i .byte v).reg c = s.reg c) ∧
    (∀ w v, (s.regWrite i w v).mem = s.mem ∧ SameFlags s (s.regWrite i w v) ∧ SameControl s (s.regWrite i w v))

/-- R23, C6: no byte name reaches SP, BP, SI or DI, whatever is written. -/
def Obligations.ByteWritesNeverReachSpBpSiDi : Prop :=
  ∀ (s : State) (i c : RegField) (v : Byte), 4 ≤ c.val → (s.regWrite i .byte v).reg c = s.reg c

/-! ### Data memory -/

/-- R56: a byte read gives the cell; a word read gives the cell at the address as low byte and the next as high byte. -/
def Obligations.MemReadIsLittleEndian : Prop :=
  ∀ (s : State) (addr : Word),
    s.memRead addr .byte = s.memByte addr.toNat ∧
    (s.memRead addr .word).toNat = (s.memByte (addr.toNat + 1)).toNat * 256 + (s.memByte addr.toNat).toNat

/-- R57: a byte write changes one cell; a word write stores the low byte at the address and the high byte at the next, which
is not wrapped; no other cell changes; what is written is read back. -/
def Obligations.MemWriteStoresLittleEndian : Prop :=
  ∀ (s : State) (addr : Word), s.mem.wf = true →
    (∀ v : Byte, (s.memWrite addr .byte v).memByte addr.toNat = v ∧
      ∀ a, a ≠ addr.toNat → (s.memWrite addr .byte v).memByte a = s.memByte a) ∧
    (∀ v : Word, ((s.memWrite addr .word v).memByte addr.toNat).toNat = v.toNat % 256 ∧
      ((s.memWrite addr .word v).memByte (addr.toNat + 1)).toNat = v.toNat / 256 ∧
      ∀ a, a ≠ addr.toNat → a ≠ addr.toNat + 1 → (s.memWrite addr .word v).memByte a = s.memByte a) ∧
    (∀ w v, (s.memWrite addr w v).memRead addr w = v)

/-- R58: a byte read after a word write gives the byte of that word; a word read after two byte writes gives both bytes. -/
def Obligations.MixedWidthAccessesAgree : Prop :=
  ∀ (s : State) (addr : Word), s.mem.wf = true →
    (∀ v : Word, (s.memWrite addr .word v).memRead addr .byte = lowByte v ∧
      (s.memWrite addr .word v).memByte (addr.toNat + 1) = highByte v ∧
      (addr.toNat < 65535 → (s.memWrite addr .word v).memRead (addr + 1) .byte = highByte v)) ∧
    (∀ p q : Byte, ((s.memWrite addr .byte p).setMemByte (addr.toNat + 1) q).memRead addr .word = wordOfBytes p q)

/-! ### Effective addresses -/

/-- R147, R148, R74: the address of each of the nine base-term lists, a sum of words (so modulo 2^16, D14), and the source's
worked example (R149). -/
def Obligations.EffectiveAddressOfEveryBaseList : Prop :=
  (∀ (s : State) (d : Word),
    s.ea [] d = d ∧
    s.ea BaseIndex.bxSi.terms d = s.reg 3 + s.reg 6 + d ∧
    s.ea BaseIndex.bxDi.terms d = s.reg 3 + s.reg 7 + d ∧
    s.ea BaseIndex.bpSi.terms d = s.reg 5 + s.reg 6 + d ∧
    s.ea BaseIndex.bpDi.terms d = s.reg 5 + s.reg 7 + d ∧
    s.ea BaseIndex.si.terms d = s.reg 6 + d ∧
    s.ea BaseIndex.di.terms d = s.reg 7 + d ∧
    s.ea BaseIndex.bp.terms d = s.reg 5 + d ∧
    s.ea BaseIndex.bx.terms d = s.reg 3 + d) ∧
  (∀ s : State, s.reg 3 = 0x0010 → s.reg 6 = 0x0002 → s.ea [3, 6] 4 = 0x0016)

/-- R148, R91: adding the stored, sign-extended byte displacement is adding its signed value, modulo 2^16 (D7, D14). -/
def Obligations.ByteDisplacementIsSigned : Prop :=
  ∀ (s : State) (b : BaseIndex) (d : Byte),
    RmOperand.place (.memDisp8 b d) = .memory b.terms (sext16 d) ∧
    ((s.ea b.terms (sext16 d)).toNat : Int) = ((s.ea b.terms 0).toNat + d.toInt) % 65536

/-! ### MOV -/

/-- R160: each of the five MOV forms completes; the destination (as its form names it, R161 to R165) then holds the source's
old value at the operation's width; both flags and everything outside the destination are as before. At a step, a decoded MOV
is executed, or faults with UnsupportedOperation because its form is in UNSUPPORTED_FORMS. -/
def Obligations.MovFormsCopySource : Prop :=
  (∀ s : State, s.mem.wf = true →
    (∀ w reg rm, AnswersNext (exec (.movRegMem .regIsDest w reg rm) s)
      (Copies w (.register reg) (s.readPlace w rm.place) s)) ∧
    (∀ w reg rm, AnswersNext (exec (.movRegMem .rmIsDest w reg rm) s)
      (Copies w rm.place (s.regRead reg w) s)) ∧
    (∀ w rm data, AnswersNext (exec (.movImmRegMem w rm data) s) (Copies w rm.place (immediateAt w data) s)) ∧
    (∀ w reg data, AnswersNext (exec (.movImmReg w reg data) s) (Copies w (.register reg) (immediateAt w data) s)) ∧
    (∀ w addr, AnswersNext (exec (.movMemAcc w addr) s) (Copies w (.register 0) (s.memRead addr w) s)) ∧
    (∀ w addr, AnswersNext (exec (.movAccMem w addr) s) (Copies w (.memory [] addr) (s.regRead 0 w) s))) ∧
  (∀ (forms : List FormPattern) (s : State) (i : Instr), i.isMov = true → s.Fetches →
    decodeOne s.stream s.ip.toNat = .ok i →
    (isUnsupported forms i = false ∧ AnswersNext (engineStep forms s) fun t => t.status = .running) ∨
    (isUnsupported forms i = true ∧ engineStep forms s = .next (s.raise .unsupportedOperation)))

/-! ### ADD, SUB, CMP -/

/-- R170 to R172 for ADD, R174 to R176: each form completes; the destination then holds the sum of both old operands modulo
2^n, the flags tell that sum, everything outside the destination is as before. Byte forms compute at 8 bits (D15). -/
def Obligations.AddFormsStoreSumAndSetFlags : Prop :=
  ∀ s : State, s.mem.wf = true →
    (∀ w reg rm, ∃ r, IsSum (s.regRead reg w) (s.readPlace w rm.place) r ∧
      AnswersNext (exec (.addRegMem .regIsDest w reg rm) s) (Stores w (.register reg) r s)) ∧
    (∀ w reg rm, ∃ r, IsSum (s.readPlace w rm.place) (s.regRead reg w) r ∧
      AnswersNext (exec (.addRegMem .rmIsDest w reg rm) s) (Stores w rm.place r s)) ∧
    (∀ sBit w rm data, ∃ r, IsSum (s.readPlace w rm.place) (immediateAt w data) r ∧
      AnswersNext (exec (.addImmRegMem sBit w rm data) s) (Stores w rm.place r s)) ∧
    (∀ w data, ∃ r, IsSum (s.regRead 0 w) (immediateAt w data) r ∧
      AnswersNext (exec (.addImmAcc w data) s) (Stores w (.register 0) r s))

/-- R170 to R172 for SUB, R177 to R179: each form completes; the destination then holds destination minus source modulo 2^n,
the flags tell that difference, everything outside the destination is as before. Byte forms compute at 8 bits (D15). -/
def Obligations.SubFormsStoreDifferenceAndSetFlags : Prop :=
  ∀ s : State, s.mem.wf = true →
    (∀ w reg rm, ∃ r, IsDifference (s.regRead reg w) (s.readPlace w rm.place) r ∧
      AnswersNext (exec (.subRegMem .regIsDest w reg rm) s) (Stores w (.register reg) r s)) ∧
    (∀ w reg rm, ∃ r, IsDifference (s.readPlace w rm.place) (s.regRead reg w) r ∧
      AnswersNext (exec (.subRegMem .rmIsDest w reg rm) s) (Stores w rm.place r s)) ∧
    (∀ sBit w rm data, ∃ r, IsDifference (s.readPlace w rm.place) (immediateAt w data) r ∧
      AnswersNext (exec (.subImmRegMem sBit w rm data) s) (Stores w rm.place r s)) ∧
    (∀ w data, ∃ r, IsDifference (s.regRead 0 w) (immediateAt w data) r ∧
      AnswersNext (exec (.subImmAcc w data) s) (Stores w (.register 0) r s))

/-- R170 to R172 for CMP, R180 to R182: each form completes; the flags tell destination minus source modulo 2^n; no register,
no byte of memory and nothing else changes, whatever the destination is. Byte forms compute at 8 bits (D15). -/
def Obligations.CmpFormsSetFlagsOnly : Prop :=
  ∀ s : State,
    (∀ w reg rm, ∃ r, IsDifference (s.regRead reg w) (s.readPlace w rm.place) r ∧
      AnswersNext (exec (.cmpRegMem .regIsDest w reg rm) s) (Compares w r s)) ∧
    (∀ w reg rm, ∃ r, IsDifference (s.readPlace w rm.place) (s.regRead reg w) r ∧
      AnswersNext (exec (.cmpRegMem .rmIsDest w reg rm) s) (Compares w r s)) ∧
    (∀ sBit w rm data, ∃ r, IsDifference (s.readPlace w rm.place) (immediateAt w data) r ∧
      AnswersNext (exec (.cmpImmRegMem sBit w rm data) s) (Compares w r s)) ∧
    (∀ w data, ∃ r, IsDifference (s.regRead 0 w) (immediateAt w data) r ∧
      AnswersNext (exec (.cmpImmAcc w data) s) (Compares w r s))

/-- R29: an ADD, SUB or CMP form takes nothing from the old flags and leaves nothing of them; a MOV form neither reads nor
writes a flag; JNE writes no flag and does not read `SF`. -/
def Obligations.FlagsWrittenByArithmeticAloneAfresh : Prop :=
  ∀ (s : State) (z n : Bool),
    (∀ i : Instr, i.isArith = true → exec i (s.setFlags z n) = exec i s) ∧
    (∀ i : Instr, i.isMov = true →
      ∃ t, exec i s = .next t ∧ SameFlags s t ∧ exec i (s.setFlags z n) = .next (t.setFlags z n)) ∧
    (∀ d, ∃ t, exec (.jne d) s = .next t ∧ SameFlags s t ∧ exec (.jne d) (s.withSf n) = .next (t.withSf n))

/-- R183: SUB and CMP of the same operands leave the same flags. -/
def Obligations.SubAndCmpLeaveSameFlags : Prop :=
  ∀ s : State,
    (∀ d w reg rm, ∃ t u, exec (.subRegMem d w reg rm) s = .next t ∧ exec (.cmpRegMem d w reg rm) s = .next u ∧
      SameFlags t u) ∧
    (∀ b w rm data, ∃ t u, exec (.subImmRegMem b w rm data) s = .next t ∧
      exec (.cmpImmRegMem b w rm data) s = .next u ∧ SameFlags t u) ∧
    (∀ w data, ∃ t u, exec (.subImmAcc w data) s = .next t ∧ exec (.cmpImmAcc w data) s = .next u ∧ SameFlags t u)

/-- R183, R175: adding the sign-extended immediate 0xFFFF is subtracting 1, in result and in both flags, register or memory. -/
def Obligations.AddingMinusOneIsSubtractingOne : Prop :=
  ∀ (s : State) (rm : RmOperand),
    exec (.addImmRegMem true .word rm 0xFFFF) s = exec (.subImmRegMem true .word rm 0x0001) s

/-- R177, R183: subtracting a register from itself, at either width and in either direction, leaves zero there, `ZF` set and
`SF` clear. -/
def Obligations.SubtractingARegisterFromItselfGivesZero : Prop :=
  ∀ (s : State) (d : Direction) (w : Width) (r : RegField),
    AnswersNext (exec (.subRegMem d w r (.reg r)) s) fun t => t.regRead r w = 0 ∧ t.zf = true ∧ t.sf = false

/-- R176, R179, R182: at byte width the accumulator forms neither read nor change AH: with another AH, the same AL and the
same flags result and that AH stands (D15). -/
def Obligations.ByteAccumulatorFormsIgnoreHighHalf : Prop :=
  ∀ (s : State) (ah : Byte) (data : Word) (i : Instr),
    i = .addImmAcc .byte data ∨ i = .subImmAcc .byte data ∨ i = .cmpImmAcc .byte data →
    ∃ t, exec i s = .next t ∧ exec i (s.regWrite 4 .byte ah) = .next (t.regWrite 4 .byte ah)

/-- R184: the table of corner cases. -/
def Obligations.AluCornerCaseTable : Prop :=
  let row (n : Nat) (op : AluOp) (a b r : BitVec n) (z f : Bool) : Prop :=
    op.result a b = r ∧ zeroFlag r = z ∧ signFlag r = f
  row 16 .add 0x0000 0x0000 0x0000 true false ∧ row 16 .add 0xFFFF 0x0001 0x0000 true false ∧
  row 16 .add 0x7FFF 0x0001 0x8000 false true ∧ row 16 .add 0x8000 0x8000 0x0000 true false ∧
  row 16 .add 0xFFFF 0xFFFF 0xFFFE false true ∧ row 16 .sub 0x0000 0x0001 0xFFFF false true ∧
  row 16 .sub 0x8000 0x0001 0x7FFF false false ∧ row 16 .sub 0x0000 0x8000 0x8000 false true ∧
  row 16 .sub 0x1234 0x1234 0x0000 true false ∧ row 16 .cmp 0x0003 0x0005 0xFFFE false true ∧
  row 8 .add 0xFF 0x01 0x00 true false ∧ row 8 .add 0x7F 0x01 0x80 false true ∧
  row 8 .add 0x80 0x00 0x80 false true ∧ row 8 .sub 0x00 0x01 0xFF false true ∧
  row 8 .sub 0x80 0x01 0x7F false false ∧ row 8 .cmp 0x10 0x10 0x00 true false

/-! ### JNE -/

/-- R190: the two bytes of JNE and its operands; a step runs it with `ip` already past it; with `ZF = 1` nothing changes (the
jump falls through); with `ZF = 0` the signed displacement is added to `ip` modulo 2^16, and nothing else changes. -/
def Obligations.JneAddsDisplacementWhenZeroFlagClear : Prop :=
  ∀ (d : Byte) (s : State),
    encode (.jne d) = [0b01110101, d] ∧ decode [0b01110101, d] = .ok (.jne d, []) ∧
    Instr.operands (.jne d) = (.immediate (d.signExtend 16), .none) ∧
    (s.Fetches → decodeOne s.stream s.ip.toNat = .ok (.jne d) → step s = exec (.jne d) { s with ip := s.ip + 2 }) ∧
    (s.zf = true → exec (.jne d) s = .next s) ∧
    (s.zf = false → AnswersNext (exec (.jne d) s) fun t =>
      (t.ip.toNat : Int) = (s.ip.toNat + d.toInt) % 65536 ∧
      SameFlags s t ∧ SameRegs s t ∧ SameMem s t ∧ t.status = s.status ∧ t.stream = s.stream)

/-- R191: a jump at offset `o` that is taken continues at `o + 2 + disp8` modulo 2^16; a target at or past the end of the
stream is no fault: the next step halts. -/
def Obligations.TakenJumpContinuesAtTarget : Prop :=
  ∀ (s : State) (d : Byte), s.Fetches → decodeOne s.stream s.ip.toNat = .ok (.jne d) → s.zf = false →
    ∃ t, step s = .next t ∧ t.status = .running ∧ (t.ip.toNat : Int) = (s.ip.toNat + 2 + d.toInt) % 65536 ∧
      (s.stream.length ≤ t.ip.toNat → step t = .next t.halt)

/-- R192 (d), (e): with a stream of at most 65 408 bytes, a jump's exact target is never past 65 535; and a taken jump whose
exact target lies before offset 0 never continues execution: the next step halts. -/
def Obligations.WrappedJumpHaltsOnShortStream : Prop :=
  ∀ (s : State) (d : Byte), s.Fetches → s.stream.length ≤ 65408 → decodeOne s.stream s.ip.toNat = .ok (.jne d) →
    (s.ip.toNat : Int) + 2 + d.toInt < 65536 ∧
    (s.zf = false → (s.ip.toNat : Int) + 2 + d.toInt < 0 → ∃ t, step s = .next t ∧ step t = .next t.halt)

/-- R192 (b), R144: `jne` to itself with `ZF = 0` runs for ever: after any number of steps the state is the same. -/
def Obligations.SelfJumpNeverEnds : Prop :=
  ∀ (s : State) (k : Nat), s.Fetches → decodeOne s.stream s.ip.toNat = .ok (.jne 0xFE) → s.zf = false → Reaches k s s

/-! ### The engine -/

/-- R141: one step, over any set of unsupported forms, for any stream a run may have (R50). -/
def Obligations.StepFollowsTheCycle : Prop :=
  ∀ (forms : List FormPattern) (s : State), s.LegalStream →
    (s.status ≠ .running → engineStep forms s = .next s) ∧
    (s.status = .running → s.stream.length ≤ s.ip.toNat → engineStep forms s = .next { s with status := .halted }) ∧
    (s.status = .running → s.ip.toNat < s.stream.length →
      (decodeOne s.stream s.ip.toNat = .error .unknownOpcode →
        engineStep forms s = .next { s with status := .faulted .unknownOpcode s.ip }) ∧
      (decodeOne s.stream s.ip.toNat = .error .truncated →
        engineStep forms s = .next { s with status := .faulted .truncated s.ip }) ∧
      (∀ i, decodeOne s.stream s.ip.toNat = .ok i →
        ((∃ p ∈ forms, p.accepts i.form = true) →
          engineStep forms s = .next { s with status := .faulted .unsupportedOperation s.ip }) ∧
        ((∀ p ∈ forms, p.accepts i.form = false) →
          engineStep forms s = exec i { s with ip := s.ip + BitVec.ofNat 16 i.size })))

/-- R141, R146: when the bytes at `ip` decode to `i`, a step of the machine is `exec i` with `ip` moved past it, and nothing
else is added around `exec`. -/
def Obligations.StepRunsDecodedInstruction : Prop :=
  ∀ (s : State) (i : Instr), s.Fetches → decodeOne s.stream s.ip.toNat = .ok i →
    step s = exec i { s with ip := s.ip + BitVec.ofNat 16 i.size }

/-- R142: the advance never wraps: the new `ip` is the offset of the byte after the instruction, at most `L`. -/
def Obligations.AdvanceNeverWraps : Prop :=
  ∀ (s : State) (i : Instr), s.Fetches → decodeOne s.stream s.ip.toNat = .ok i →
    (s.advance i).ip.toNat = s.ip.toNat + i.size ∧ s.ip.toNat + i.size ≤ s.stream.length

/-- R143: the transitions of the engine and their effect on `ip`, over any set of unsupported forms. -/
def Obligations.IpStateMachine : Prop :=
  ∀ (forms : List FormPattern) (s t : State), s.LegalStream → engineStep forms s = .next t →
    (s.status ≠ .running → t.status = s.status ∧ t.ip = s.ip) ∧
    (s.status = .running → s.stream.length ≤ s.ip.toNat → t.status = .halted ∧ t.ip = s.ip) ∧
    (s.Fetches → ∀ e, decodeOne s.stream s.ip.toNat = .error e →
      t.status = .faulted (faultOfDecode e) s.ip ∧ t.ip = s.ip) ∧
    (s.Fetches → ∀ i, decodeOne s.stream s.ip.toNat = .ok i →
      (isUnsupported forms i = true → t.status = .faulted .unsupportedOperation s.ip ∧ t.ip = s.ip) ∧
      (isUnsupported forms i = false → t.status = .running ∧
        ((i.isMov = true ∨ i.isArith = true) → t.ip = s.ip + BitVec.ofNat 16 i.size) ∧
        (∀ d, i = .jne d → s.zf = true → t.ip = s.ip + 2) ∧
        (∀ d, i = .jne d → s.zf = false → t.ip = s.ip + 2 + d.signExtend 16)))

/-- R33, R141, R208: a halted or faulted engine never changes again, however many steps follow. -/
def Obligations.StoppedEngineNeverChanges : Prop :=
  ∀ (s : State) (k : Nat), s.Ended → Reaches k s s

/-- R205, R206, R207: a step that faults records the offset of the faulting instruction, inside the stream, and changes nothing
else; its kind is that of the decode error, or UnsupportedOperation for a decoded form in UNSUPPORTED_FORMS (D18). -/
def Obligations.FaultsArePrecise : Prop :=
  ∀ (forms : List FormPattern) (s t : State) (kind : Fault) (offset : Word),
    s.status = .running → engineStep forms s = .next t → t.status = .faulted kind offset →
    offset = s.ip ∧ t = { s with status := .faulted kind s.ip } ∧ s.ip.toNat < s.stream.length ∧
    (kind = .unknownOpcode ↔ decodeOne s.stream s.ip.toNat = .error .unknownOpcode) ∧
    (kind = .truncated ↔ decodeOne s.stream s.ip.toNat = .error .truncated) ∧
    (kind = .unsupportedOperation ↔ ∃ i, decodeOne s.stream s.ip.toNat = .ok i ∧ isUnsupported forms i = true)

/-- R204, R200: there is no other stop: with a stream a run may have, every step of every state answers a next state, and a
running engine then runs, has halted, or has faulted at fetch. -/
def Obligations.EveryStepOfLegalStreamAnswersNext : Prop :=
  ∀ s : State, s.LegalStream → AnswersNext (step s) fun t =>
    s.status = .running → t.status = .running ∨ (t.status = .halted ∧ s.stream.length ≤ s.ip.toNat) ∨
      t.status = .faulted .unknownOpcode s.ip ∨ t.status = .faulted .truncated s.ip

/-- R203: UnsupportedOperation is raised for a decoded form that is a member of UNSUPPORTED_FORMS, after decode, before any
state change, with the offset of the first byte; with the default empty set it is never raised. -/
def Obligations.UnsupportedFormFaultsBeforeAnyChange : Prop :=
  (∀ (forms : List FormPattern) (s : State) (i : Instr), s.Fetches → decodeOne s.stream s.ip.toNat = .ok i →
    (∃ p ∈ forms, p.accepts i.form = true) →
    engineStep forms s = .next { s with status := .faulted .unsupportedOperation s.ip }) ∧
  (∀ s t : State, s.status = .running → step s = .next t → ∀ offset, t.status ≠ .faulted .unsupportedOperation offset)

/-- D13, U1: a running engine whose stream is longer than 65 535 bytes is refused by name. -/
def Obligations.OverlongStreamIsRefused : Prop :=
  ∀ s : State, s.status = .running → 65535 < s.stream.length → step s = .refused .streamTooLong

/-- R51, R64: no run, of any length, changes a byte of the stream. -/
def Obligations.StreamIsReadOnly : Prop :=
  ∀ (k : Nat) (s t : State), Reaches k s t → t.stream = s.stream

/-- R54: no run, of any length, changes a cell above 0x10000. -/
def Obligations.HighCellsAreNeverTouched : Prop :=
  ∀ (k : Nat) (s t : State), s.mem.wf = true → Reaches k s t → ∀ a, 0x10000 < a → t.memByte a = s.memByte a

/-- R29, R190: nothing reads `SF`: two runs that start from states equal but for `SF` stay equal but for `SF`, step by step. -/
def Obligations.SignFlagNeverSteersARun : Prop :=
  ∀ (k : Nat) (s t : State) (b : Bool), Reaches k s t → ∃ b', Reaches k (s.withSf b) (t.withSf b')

/-- Every step keeps the invariant: legal stream (R50), canonical memory, untouched high cells (R54), flags never both set
(R172), and a status that fits `ip` (R33, R144, R206). -/
def Obligations.EveryStepKeepsInvariant : Prop :=
  ∀ s t : State, s.Inv → step s = .next t → t.Inv

/-- The invariant holds at reset and wherever a run of a legal stream starts (R36, R233). -/
def Obligations.RunsStartInInvariant : Prop :=
  State.reset.Inv ∧ ∀ stream : List Byte, stream.length ≤ 65535 → (State.launch stream).Inv

/-- R140, R204: from reset with any stream of at most 65 535 bytes, any number of steps completes, in a state that satisfies
the invariant and still holds that stream. -/
def Obligations.EveryRunOfLegalStreamCompletesInInvariant : Prop :=
  ∀ (stream : List Byte) (k : Nat), stream.length ≤ 65535 →
    ∃ t, Reaches k (State.launch stream) t ∧ t.Inv ∧ t.stream = stream

/-! ### The decoder and the encoder -/

/-- Decode of encode: every well-formed instruction of every form, with every operand at every value, followed by any bytes,
decodes to itself and leaves those bytes (R80 to R93, R121). -/
def Obligations.DecodeOfEncode : Prop :=
  ∀ (i : Instr) (rest : List Byte), i.wellFormed = true → decode (encode i ++ rest) = .ok (i, rest)

/-- Encode of decode: whatever the decoder accepts is well formed and was exactly its encoding: no bit is dropped, no bytes
have two readings (R121, R122). -/
def Obligations.EncodeOfDecode : Prop :=
  ∀ (bs rest : List Byte) (i : Instr), decode bs = .ok (i, rest) → i.wellFormed = true ∧ bs = encode i ++ rest

/-- R125: the walk from offset 0 over any concatenation of valid encoded instructions visits exactly their boundaries, decodes
each, and ends at the end of the stream with no error. -/
def Obligations.WalkConsumesStreamExactly : Prop :=
  ∀ is : List Instr, (∀ i ∈ is, i.wellFormed = true) →
    walk (encodeAll is) (encodeAll is).length 0 = .ok (layout 0 is) ∧
    (encodeAll is).length = (is.map Instr.size).sum

/-- R126, R124: an instruction decodes to the same wherever its bytes stand in a stream. -/
def Obligations.DecodingDependsOnBytesAlone : Prop :=
  ∀ (before after : List Byte) (i : Instr), i.wellFormed = true →
    decodeOne (before ++ encode i ++ after) before.length = .ok i

/-- R87: a decoded instruction has consumed `size_bytes` bytes, between 2 and 6. -/
def Obligations.DecodedSizeIsTwoToSixBytes : Prop :=
  ∀ (bs rest : List Byte) (i : Instr), decode bs = .ok (i, rest) →
    bs.length = i.size + rest.length ∧ 2 ≤ i.size ∧ i.size ≤ 6

/-- R75: the displacement length of every `mod` and `rm`; and in format RM the direct-address slot is a 16-bit absolute address
with no base register, four bytes in all. -/
def Obligations.DisplacementLengths : Prop :=
  (∀ (m : Fin 4) (r : RegField) (bs rest : List Byte) (rm : RmOperand), takeRmOperand m r bs = .ok (rm, rest) →
    bs.length = rest.length +
      (if m = 0 then (if r = 6 then 2 else 0) else if m = 1 then 1 else if m = 2 then 2 else 0)) ∧
  (∀ (d : Direction) (w : Width) (reg : RegField) (lo hi : Byte) (rest : List Byte),
    RmOperand.place (.direct (wordOfBytes lo hi)) = .memory [] (wordOfBytes lo hi) ∧
    ∀ p ∈ [(0b100010#6, Instr.movRegMem), (0b000000#6, Instr.addRegMem), (0b001010#6, Instr.subRegMem),
        (0b001110#6, Instr.cmpRegMem)],
      decode ((p.1 ++ d.bit ++ w.bit) :: (0b00#2 ++ reg.bits ++ 0b110#3) :: lo :: hi :: rest) =
        .ok (p.2 d w reg (.direct (wordOfBytes lo hi)), rest))

/-- R89, S1: no first byte is recognised by two rows of the table, and 49 are recognised by one. -/
def Obligations.TableRowsAreDisjoint : Prop :=
  (∀ b0 : Byte, (firstByteTable.filter (·.recognises b0)).length ≤ 1) ∧
  ((List.range 256).filter fun n => (firstByteEntry (BitVec.ofNat 8 n)).isSome).length = 49

/-- R94, R112, R114: UnknownOpcode exactly for (a) a first byte outside the 49, (b) 0x80..0x83 with `ext` in 1, 2, 3, 4, 6,
(c) 0xC6, 0xC7 with `ext` not 0 (D9), each whatever follows, even where the bytes also run out (D19). -/
def Obligations.UnknownOpcodeExactlyForIllegalEncodings : Prop :=
  ∀ (b0 : Byte) (bs : List Byte),
    decode (b0 :: bs) = .error .unknownOpcode ↔
      (b0.toNat ∉ [0x00, 0x01, 0x02, 0x03, 0x04, 0x05, 0x28, 0x29, 0x2A, 0x2B, 0x2C, 0x2D, 0x38, 0x39, 0x3A, 0x3B, 0x3C,
          0x3D, 0x75, 0x80, 0x81, 0x82, 0x83, 0x88, 0x89, 0x8A, 0x8B, 0xA0, 0xA1, 0xA2, 0xA3, 0xC6, 0xC7] ∧
        ¬ (0xB0 ≤ b0.toNat ∧ b0.toNat ≤ 0xBF)) ∨
      (0x80 ≤ b0.toNat ∧ b0.toNat ≤ 0x83 ∧ ∃ b1 rest, bs = b1 :: rest ∧ b1.toNat / 8 % 8 ∈ [1, 2, 3, 4, 6]) ∨
      (0xC6 ≤ b0.toNat ∧ b0.toNat ≤ 0xC7 ∧ ∃ b1 rest, bs = b1 :: rest ∧ b1.toNat / 8 % 8 ≠ 0)

/-- R113: Truncated exactly when the bytes stop inside an instruction: they are a proper prefix (the empty one among them,
D30) of some instruction's encoding. -/
def Obligations.TruncatedExactlyForProperPrefixes : Prop :=
  ∀ bs : List Byte, decode bs = .error .truncated ↔
    ∃ (i : Instr) (n : Nat), i.wellFormed = true ∧ n < i.size ∧ bs = (encode i).take n

/-- R96: byte sequences that denote the same operation execute identically: (a) the two directions of format RM with
`mod = 11`; (b) a register destination by formats IRM, IR and IA; (c) a word immediate by 0x81 or 0x83, and (d) 0x80 and 0x82;
(e) a displacement by the shorter or the longer form; (f) a direct address by format RM or MA. -/
def Obligations.RedundantEncodingsExecuteIdentically : Prop :=
  ∀ s : State,
    (∀ w a b, exec (.movRegMem .rmIsDest w a (.reg b)) s = exec (.movRegMem .regIsDest w b (.reg a)) s ∧
      exec (.addRegMem .rmIsDest w a (.reg b)) s = exec (.addRegMem .regIsDest w b (.reg a)) s ∧
      exec (.subRegMem .rmIsDest w a (.reg b)) s = exec (.subRegMem .regIsDest w b (.reg a)) s ∧
      exec (.cmpRegMem .rmIsDest w a (.reg b)) s = exec (.cmpRegMem .regIsDest w b (.reg a)) s) ∧
    (∀ w r data, exec (.movImmRegMem w (.reg r) data) s = exec (.movImmReg w r data) s) ∧
    (∀ sBit w data, exec (.addImmRegMem sBit w (.reg 0) data) s = exec (.addImmAcc w data) s ∧
      exec (.subImmRegMem sBit w (.reg 0) data) s = exec (.subImmAcc w data) s ∧
      exec (.cmpImmRegMem sBit w (.reg 0) data) s = exec (.cmpImmAcc w data) s) ∧
    (∀ w rm data, exec (.addImmRegMem true w rm data) s = exec (.addImmRegMem false w rm data) s ∧
      exec (.subImmRegMem true w rm data) s = exec (.subImmRegMem false w rm data) s ∧
      exec (.cmpImmRegMem true w rm data) s = exec (.cmpImmRegMem false w rm data) s) ∧
    (∀ (d : Direction) (w : Width) (reg : RegField) (sBit : Bool) (data : Word) (b : BaseIndex) (disp : Byte),
      ∀ form ∈ [Instr.movRegMem d w reg, fun rm => .movImmRegMem w rm data,
          Instr.addRegMem d w reg, fun rm => .addImmRegMem sBit w rm data,
          Instr.subRegMem d w reg, fun rm => .subImmRegMem sBit w rm data,
          Instr.cmpRegMem d w reg, fun rm => .cmpImmRegMem sBit w rm data],
        exec (form (.memDisp8 b disp)) s = exec (form (.memDisp16 b (disp.signExtend 16))) s ∧
        exec (form (.mem b)) s = exec (form (.memDisp8 b 0)) s) ∧
    (∀ w addr, exec (.movRegMem .regIsDest w 0 (.direct addr)) s = exec (.movMemAcc w addr) s ∧
      exec (.movRegMem .rmIsDest w 0 (.direct addr)) s = exec (.movAccMem w addr) s)

/-- R127, R80: words written out from the spec's encodings decode to the records the spec prints for them. -/
def Obligations.WrittenOutWordsDecodeToTheirRecords : Prop :=
  let reads (bs : List Byte) (r : InstrRecord) : Prop := (decodeOne bs 0).map Instr.record = .ok r
  reads [0x89, 0xD8] ⟨.movRegMem, .register 0 .word, .register 3 .word, 2, true⟩ ∧
  reads [0x83, 0x47, 0x04, 0x0A] ⟨.addImmRegMem, .memory [3] 0x0004, .immediate 0x000A, 4, true⟩ ∧
  reads [0x81, 0x47, 0x04, 0x0A, 0x00] ⟨.addImmRegMem, .memory [3] 0x0004, .immediate 0x000A, 5, true⟩ ∧
  reads [0x8B, 0x1E, 0x34, 0x12] ⟨.movRegMem, .register 3 .word, .memory [] 0x1234, 4, true⟩ ∧
  reads [0xC7, 0x87, 0x00, 0x01, 0xCD, 0xAB] ⟨.movImmRegMem, .memory [3] 0x0100, .immediate 0xABCD, 6, true⟩ ∧
  reads [0x8A, 0x40, 0xFF] ⟨.movRegMem, .register 0 .byte, .memory [3, 6] 0xFFFF, 3, false⟩ ∧
  reads [0x75, 0xFC] ⟨.jne, .immediate 0xFFFC, .none, 2, false⟩ ∧
  decodeOne [0xF4] 0 = .error .unknownOpcode ∧ decodeOne [0x81, 0xC8, 0x01, 0x00] 0 = .error .unknownOpcode ∧
  decodeOne [0xB8, 0x05] 0 = .error .truncated

/-! ### Numbers of the faults -/

/-- R200: the faults are exactly three, with the numbers 1, 2 and 3; a status that is no fault has 0, and no other has; the two
decode errors raise the first two, so the third comes from the engine alone. The numbers are the spec's decision D18. -/
def Obligations.FaultNumbersOfStatuses : Prop :=
  (∀ f : Fault, f = .unknownOpcode ∨ f = .truncated ∨ f = .unsupportedOperation) ∧
  (∀ o, (Status.faulted .unknownOpcode o).code = 1 ∧ (Status.faulted .truncated o).code = 2 ∧
    (Status.faulted .unsupportedOperation o).code = 3) ∧
  (∀ st : Status, st.code = 0 ↔ st = .running ∨ st = .halted) ∧
  faultOfDecode .unknownOpcode = .unknownOpcode ∧ faultOfDecode .truncated = .truncated ∧
  (∀ e, faultOfDecode e ≠ .unsupportedOperation)
end

