-- ==== Sys2Proof/Laws/Decode.lean ====
section
/-! SUPPORT. The decoder's parts against the encoder's parts: fields of a mode byte, displacement, immediate, first byte. -/

namespace Sys2Proof

@[simp] theorem andThen_ok {α β : Type} (a : α) (bs : List Byte) (f : α → List Byte → Parse β) :
    andThen (.ok (a, bs)) f = f a bs := rfl

@[simp] theorem andThen_error {α β : Type} (e : DecodeError) (f : α → List Byte → Parse β) :
    andThen (.error e) f = .error e := rfl

/-- Where a composed part succeeds, both of its parts did. -/
theorem andThen_eq_ok {α β : Type} {r : Parse α} {f : α → List Byte → Parse β} {b : β × List Byte} :
    andThen r f = .ok b ↔ ∃ a bs, r = .ok (a, bs) ∧ f a bs = .ok b := by
  cases r with
  | error e => simp
  | ok p =>
    obtain ⟨a, bs⟩ := p
    simp

/-- Where a composed part fails, its first part failed or its second did. -/
theorem andThen_eq_error {α β : Type} {r : Parse α} {f : α → List Byte → Parse β} {e : DecodeError} :
    andThen r f = .error e ↔ r = .error e ∨ ∃ a bs, r = .ok (a, bs) ∧ f a bs = .error e := by
  cases r with
  | error e' => simp
  | ok p =>
    obtain ⟨a, bs⟩ := p
    simp

/-! ### Fields (R116) -/

theorem modField_modeByte : ∀ (m : BitVec 2) (r x : BitVec 3), modField (modeByte m r x) = m.toFin := by decide

theorem regField_modeByte : ∀ (m : BitVec 2) (r x : BitVec 3), regField (modeByte m r x) = r.toFin := by decide

theorem rmField_modeByte : ∀ (m : BitVec 2) (r x : BitVec 3), rmField (modeByte m r x) = x.toFin := by decide

/-- A mode byte is its three fields. -/
theorem modeByte_fields : ∀ b : Byte,
    modeByte (BitVec.ofFin (modField b)) (RegField.bits (regField b)) (RegField.bits (rmField b)) = b := by decide

@[simp] theorem RegField.toFin_bits : ∀ r : RegField, r.bits.toFin = r := by decide

@[simp] theorem BaseIndex.ofField_bits (b : BaseIndex) : BaseIndex.ofField b.bits.toFin = b := by cases b <;> rfl

@[simp] theorem BaseIndex.bits_ofField : ∀ r : RegField, (BaseIndex.ofField r).bits = r.bits := by decide

theorem BaseIndex.ofField_eq_bp : ∀ {r : RegField}, BaseIndex.ofField r = .bp → r = 6 := by decide

@[simp] theorem Width.ofBit_wide (w : Width) : Width.ofBit w.wide = w := by cases w <;> rfl

/-! ### Bytes and words -/

@[simp] theorem takeByte_cons (b : Byte) (bs : List Byte) : takeByte (b :: bs) = .ok (b, bs) := rfl

theorem takeByte_eq_ok {bs rest : List Byte} {b : Byte} : takeByte bs = .ok (b, rest) ↔ bs = b :: rest := by
  cases bs <;> simp [takeByte]

theorem takeByte_eq_error {bs : List Byte} {e : DecodeError} : takeByte bs = .error e ↔ bs = [] ∧ e = .truncated := by
  cases bs <;> simp [takeByte, eq_comm]

@[simp] theorem takeWord_wordBytes (v : Word) (rest : List Byte) : takeWord (wordBytes v ++ rest) = .ok (v, rest) := by
  simp [takeWord, wordBytes, wordOfBytes_halves]

theorem takeWord_eq_ok {bs rest : List Byte} {v : Word} : takeWord bs = .ok (v, rest) ↔ bs = wordBytes v ++ rest := by
  constructor
  · intro h
    match bs, h with
    | lo :: hi :: bs, h =>
      injection h with h
      injection h with hv hr
      subst hv hr
      simp [wordBytes, lowByte_wordOfBytes, highByte_wordOfBytes]
  · rintro rfl
    exact takeWord_wordBytes v rest

theorem takeWord_eq_error {bs : List Byte} {e : DecodeError} :
    takeWord bs = .error e ↔ bs.length < 2 ∧ e = .truncated := by
  match bs with
  | [] => simp [takeWord, eq_comm]
  | [b] => simp [takeWord, eq_comm]
  | lo :: hi :: bs => simp [takeWord]

/-! ### The `rm` operand (R117) -/

theorem takeRmOperand_direct (bs : List Byte) :
    takeRmOperand 0 6 bs = andThen (takeWord bs) fun addr bs => .ok (.direct addr, bs) := rfl

theorem takeRmOperand_disp8 (r : RegField) (bs : List Byte) :
    takeRmOperand 1 r bs = andThen (takeByte bs) fun d bs => .ok (.memDisp8 (BaseIndex.ofField r) d, bs) := rfl

theorem takeRmOperand_disp16 (r : RegField) (bs : List Byte) :
    takeRmOperand 2 r bs = andThen (takeWord bs) fun d bs => .ok (.memDisp16 (BaseIndex.ofField r) d, bs) := rfl

theorem takeRmOperand_reg (r : RegField) (bs : List Byte) : takeRmOperand 3 r bs = .ok (.reg r, bs) := rfl

theorem takeRmOperand_encode (rm : RmOperand) (rest : List Byte) (h : rm.wellFormed = true) :
    takeRmOperand rm.modBits.toFin rm.rmBits.toFin (rm.dispBytes ++ rest) = .ok (rm, rest) := by
  cases rm with
  | reg r => exact (takeRmOperand_reg _ _).trans (by simp [RmOperand.dispBytes, RmOperand.rmBits])
  | mem b => cases b <;> first | rfl | simp [RmOperand.wellFormed] at h
  | direct addr => exact (takeRmOperand_direct _).trans (by simp [RmOperand.dispBytes])
  | memDisp8 b d => exact (takeRmOperand_disp8 _ _).trans (by simp [RmOperand.dispBytes, RmOperand.rmBits])
  | memDisp16 b d => exact (takeRmOperand_disp16 _ _).trans (by simp [RmOperand.dispBytes, RmOperand.rmBits])

/-- What a decoded `rm` operand came from: the very fields and displacement bytes that encode it. -/
theorem takeRmOperand_eq_ok {m : Fin 4} {r : RegField} {bs rest : List Byte} {rm : RmOperand}
    (h : takeRmOperand m r bs = .ok (rm, rest)) :
    rm.wellFormed = true ∧ bs = rm.dispBytes ++ rest ∧ rm.modBits = BitVec.ofFin m ∧ rm.rmBits = r.bits := by
  unfold takeRmOperand at h
  split at h
  · split at h
    · next hb =>
      obtain ⟨a, bs', ha, hr⟩ := andThen_eq_ok.mp h
      injection hr with hr
      injection hr with h1 h2
      subst h1 h2
      exact ⟨rfl, takeWord_eq_ok.mp ha, rfl, by rw [BaseIndex.ofField_eq_bp hb]; rfl⟩
    · next b hb =>
      injection h with hr
      injection hr with h1 h2
      subst h1 h2
      exact ⟨by simpa [RmOperand.wellFormed] using hb, rfl, rfl, by simp [RmOperand.rmBits]⟩
  · obtain ⟨a, bs', ha, hr⟩ := andThen_eq_ok.mp h
    injection hr with hr
    injection hr with h1 h2
    subst h1 h2
    exact ⟨rfl, takeByte_eq_ok.mp ha, rfl, by simp [RmOperand.rmBits]⟩
  · obtain ⟨a, bs', ha, hr⟩ := andThen_eq_ok.mp h
    injection hr with hr
    injection hr with h1 h2
    subst h1 h2
    exact ⟨rfl, takeWord_eq_ok.mp ha, rfl, by simp [RmOperand.rmBits]⟩
  · injection h with hr
    injection hr with h1 h2
    subst h1 h2
    exact ⟨rfl, rfl, rfl, rfl⟩

/-! ### Immediates (R92) -/

theorem lowByte_zext16 (p : Byte) : lowByte (zext16 p) = p := by
  apply BitVec.eq_of_toNat_eq
  have := p.isLt
  simp [lowByte, zext16]
  omega

theorem lowByte_sext16 : ∀ p : Byte, lowByte (sext16 p) = p := by decide

theorem lowByte_eq_setWidth (v : Word) : lowByte v = v.setWidth 8 := by
  apply BitVec.eq_of_toNat_eq
  simp [lowByte]

theorem takeData_encode (w : Width) (data : Word) (rest : List Byte) (h : dataFits w data = true) :
    takeData w (dataBytes w data ++ rest) = .ok (data, rest) := by
  cases w with
  | word => exact takeWord_wordBytes data rest
  | byte =>
    have h : data = (data.setWidth 8).setWidth 16 := by simpa [dataFits] using h
    show Except.ok (zext16 (lowByte data), rest) = _
    rw [zext16, lowByte_eq_setWidth, ← h]

theorem takeData_eq_ok {w : Width} {bs rest : List Byte} {data : Word} (h : takeData w bs = .ok (data, rest)) :
    dataFits w data = true ∧ bs = dataBytes w data ++ rest := by
  cases w with
  | word => exact ⟨rfl, takeWord_eq_ok.mp h⟩
  | byte =>
    obtain ⟨p, bs', hp, hr⟩ := andThen_eq_ok.mp h
    injection hr with hr
    injection hr with h1 h2
    subst h1 h2
    refine ⟨?_, ?_⟩
    · show (_ == _) = true
      rw [← lowByte_eq_setWidth, lowByte_zext16]
      simp [zext16]
    · simp [takeByte_eq_ok.mp hp, dataBytes, lowByte_zext16]

theorem takeArithData_encode (s : Bool) (w : Width) (data : Word) (rest : List Byte)
    (h : arithDataFits s w data = true) : takeArithData s w (arithDataBytes s w data ++ rest) = .ok (data, rest) := by
  cases s <;> cases w
  · exact takeData_encode .byte data rest h
  · exact takeData_encode .word data rest h
  · exact takeData_encode .byte data rest h
  · have h : data = (data.setWidth 8).signExtend 16 := by simpa [arithDataFits] using h
    show Except.ok (sext16 (lowByte data), rest) = _
    rw [sext16, lowByte_eq_setWidth, ← h]

theorem takeArithData_eq_ok {s : Bool} {w : Width} {bs rest : List Byte} {data : Word}
    (h : takeArithData s w bs = .ok (data, rest)) :
    arithDataFits s w data = true ∧ bs = arithDataBytes s w data ++ rest := by
  cases s <;> cases w
  · exact takeData_eq_ok (w := .byte) h
  · exact takeData_eq_ok (w := .word) h
  · exact takeData_eq_ok (w := .byte) h
  · obtain ⟨p, bs', hp, hr⟩ := andThen_eq_ok.mp h
    injection hr with hr
    injection hr with h1 h2
    subst h1 h2
    refine ⟨?_, ?_⟩
    · show (_ == _) = true
      rw [← lowByte_eq_setWidth, lowByte_sext16]
      simp [sext16]
    · simp [takeByte_eq_ok.mp hp, arithDataBytes, lowByte_sext16]

/-! ### The first byte (R88) -/

theorem firstByteEntry_regMem (d : Direction) (w : Width) :
    firstByteEntry (0b100010#6 ++ d.bit ++ w.bit) = some .movRegMem ∧
    firstByteEntry (0b000000#6 ++ d.bit ++ w.bit) = some .addRegMem ∧
    firstByteEntry (0b001010#6 ++ d.bit ++ w.bit) = some .subRegMem ∧
    firstByteEntry (0b001110#6 ++ d.bit ++ w.bit) = some .cmpRegMem := by
  cases d <;> cases w <;> decide

theorem firstByteEntry_immediate (w : Width) :
    firstByteEntry (0b1100011#7 ++ w.bit) = some .movImmRegMem ∧
    firstByteEntry (0b1010000#7 ++ w.bit) = some .movMemAcc ∧
    firstByteEntry (0b1010001#7 ++ w.bit) = some .movAccMem ∧
    firstByteEntry (0b0000010#7 ++ w.bit) = some .addImmAcc ∧
    firstByteEntry (0b0010110#7 ++ w.bit) = some .subImmAcc ∧
    firstByteEntry (0b0011110#7 ++ w.bit) = some .cmpImmAcc := by
  cases w <;> decide

theorem firstByteEntry_arith (s : Bool) (w : Width) :
    firstByteEntry (0b100000#6 ++ BitVec.ofBool s ++ w.bit) = some .arithImmRegMem := by
  cases s <;> cases w <;> decide

theorem firstByteEntry_movImmReg (w : Width) : ∀ r : RegField,
    firstByteEntry (0b1011#4 ++ w.bit ++ r.bits) = some .movImmReg := by
  cases w <;> decide

/-- The bytes a row recognises are those its format writes. -/
theorem firstByteEntry_eq_some : ∀ (b0 : Byte) (e : TableEntry), firstByteEntry b0 = some e →
    match e with
    | .jne => b0 = 0b01110101
    | .movImmRegMem => b0 = 0b1100011#7 ++ (Width.ofBit (b0.getLsbD 0)).bit
    | .movMemAcc => b0 = 0b1010000#7 ++ (Width.ofBit (b0.getLsbD 0)).bit
    | .movAccMem => b0 = 0b1010001#7 ++ (Width.ofBit (b0.getLsbD 0)).bit
    | .addImmAcc => b0 = 0b0000010#7 ++ (Width.ofBit (b0.getLsbD 0)).bit
    | .subImmAcc => b0 = 0b0010110#7 ++ (Width.ofBit (b0.getLsbD 0)).bit
    | .cmpImmAcc => b0 = 0b0011110#7 ++ (Width.ofBit (b0.getLsbD 0)).bit
    | .movRegMem => b0 = 0b100010#6 ++ (Direction.ofBit (b0.getLsbD 1)).bit ++ (Width.ofBit (b0.getLsbD 0)).bit
    | .addRegMem => b0 = 0b000000#6 ++ (Direction.ofBit (b0.getLsbD 1)).bit ++ (Width.ofBit (b0.getLsbD 0)).bit
    | .subRegMem => b0 = 0b001010#6 ++ (Direction.ofBit (b0.getLsbD 1)).bit ++ (Width.ofBit (b0.getLsbD 0)).bit
    | .cmpRegMem => b0 = 0b001110#6 ++ (Direction.ofBit (b0.getLsbD 1)).bit ++ (Width.ofBit (b0.getLsbD 0)).bit
    | .arithImmRegMem => b0 = 0b100000#6 ++ BitVec.ofBool (b0.getLsbD 1) ++ (Width.ofBit (b0.getLsbD 0)).bit
    | .movImmReg => b0 = 0b1011#4 ++ (Width.ofBit (b0.getLsbD 3)).bit ++ RegField.bits (rmField b0) := by
  intro b0 e
  cases e <;> (revert b0; decide)

/-! ### Lengths (R75, R87) -/

@[simp] theorem wordBytes_length (v : Word) : (wordBytes v).length = 2 := rfl

@[simp] theorem RmOperand.dispBytes_length (rm : RmOperand) : rm.dispBytes.length = rm.dispLen := by cases rm <;> rfl

@[simp] theorem dataBytes_length (w : Width) (data : Word) : (dataBytes w data).length = w.bytes := by cases w <;> rfl

@[simp] theorem arithDataBytes_length (s : Bool) (w : Width) (data : Word) :
    (arithDataBytes s w data).length = arithImmLen s w := by
  cases s <;> cases w <;> rfl

theorem RmOperand.dispLen_le (rm : RmOperand) : rm.dispLen ≤ 2 := by cases rm <;> simp [RmOperand.dispLen]

theorem Width.bytes_range (w : Width) : 1 ≤ w.bytes ∧ w.bytes ≤ 2 := by cases w <;> simp [Width.bytes]

theorem arithImmLen_range (s : Bool) (w : Width) : 1 ≤ arithImmLen s w ∧ arithImmLen s w ≤ 2 := by
  cases s <;> cases w <;> simp [arithImmLen]

end Sys2Proof
end

