-- ==== Sys2Proof/Laws/State.lean ====
section
/-! SUPPORT. One lemma per field per update of the state, so that no later proof unfolds a record update. -/

namespace Sys2Proof.Machine

/-! ### `setReg` -/

@[simp] theorem State.setReg_regs (s : State) (i : RegField) (v : Word) : (s.setReg i v).regs = s.regs.set i.val v := rfl
@[simp] theorem State.setReg_zf (s : State) (i : RegField) (v : Word) : (s.setReg i v).zf = s.zf := rfl
@[simp] theorem State.setReg_sf (s : State) (i : RegField) (v : Word) : (s.setReg i v).sf = s.sf := rfl
@[simp] theorem State.setReg_ip (s : State) (i : RegField) (v : Word) : (s.setReg i v).ip = s.ip := rfl
@[simp] theorem State.setReg_mem (s : State) (i : RegField) (v : Word) : (s.setReg i v).mem = s.mem := rfl
@[simp] theorem State.setReg_status (s : State) (i : RegField) (v : Word) : (s.setReg i v).status = s.status := rfl
@[simp] theorem State.setReg_stream (s : State) (i : RegField) (v : Word) : (s.setReg i v).stream = s.stream := rfl

/-! ### `setMemByte` -/

@[simp] theorem State.setMemByte_regs (s : State) (a : Nat) (v : Byte) : (s.setMemByte a v).regs = s.regs := rfl
@[simp] theorem State.setMemByte_zf (s : State) (a : Nat) (v : Byte) : (s.setMemByte a v).zf = s.zf := rfl
@[simp] theorem State.setMemByte_sf (s : State) (a : Nat) (v : Byte) : (s.setMemByte a v).sf = s.sf := rfl
@[simp] theorem State.setMemByte_ip (s : State) (a : Nat) (v : Byte) : (s.setMemByte a v).ip = s.ip := rfl
@[simp] theorem State.setMemByte_mem (s : State) (a : Nat) (v : Byte) : (s.setMemByte a v).mem = s.mem.write a v := rfl
@[simp] theorem State.setMemByte_status (s : State) (a : Nat) (v : Byte) : (s.setMemByte a v).status = s.status := rfl
@[simp] theorem State.setMemByte_stream (s : State) (a : Nat) (v : Byte) : (s.setMemByte a v).stream = s.stream := rfl

/-! ### `setFlags` -/

@[simp] theorem State.setFlags_regs (s : State) (z n : Bool) : (s.setFlags z n).regs = s.regs := rfl
@[simp] theorem State.setFlags_zf (s : State) (z n : Bool) : (s.setFlags z n).zf = z := rfl
@[simp] theorem State.setFlags_sf (s : State) (z n : Bool) : (s.setFlags z n).sf = n := rfl
@[simp] theorem State.setFlags_ip (s : State) (z n : Bool) : (s.setFlags z n).ip = s.ip := rfl
@[simp] theorem State.setFlags_mem (s : State) (z n : Bool) : (s.setFlags z n).mem = s.mem := rfl
@[simp] theorem State.setFlags_status (s : State) (z n : Bool) : (s.setFlags z n).status = s.status := rfl
@[simp] theorem State.setFlags_stream (s : State) (z n : Bool) : (s.setFlags z n).stream = s.stream := rfl

/-! ### `addIp` -/

@[simp] theorem State.addIp_regs (s : State) (d : Word) : (s.addIp d).regs = s.regs := rfl
@[simp] theorem State.addIp_zf (s : State) (d : Word) : (s.addIp d).zf = s.zf := rfl
@[simp] theorem State.addIp_sf (s : State) (d : Word) : (s.addIp d).sf = s.sf := rfl
@[simp] theorem State.addIp_ip (s : State) (d : Word) : (s.addIp d).ip = s.ip + d := rfl
@[simp] theorem State.addIp_mem (s : State) (d : Word) : (s.addIp d).mem = s.mem := rfl
@[simp] theorem State.addIp_status (s : State) (d : Word) : (s.addIp d).status = s.status := rfl
@[simp] theorem State.addIp_stream (s : State) (d : Word) : (s.addIp d).stream = s.stream := rfl

/-! ### `advance` -/

@[simp] theorem State.advance_regs (s : State) (i : Instr) : (s.advance i).regs = s.regs := rfl
@[simp] theorem State.advance_zf (s : State) (i : Instr) : (s.advance i).zf = s.zf := rfl
@[simp] theorem State.advance_sf (s : State) (i : Instr) : (s.advance i).sf = s.sf := rfl
@[simp] theorem State.advance_ip (s : State) (i : Instr) : (s.advance i).ip = s.ip + BitVec.ofNat 16 i.size := rfl
@[simp] theorem State.advance_mem (s : State) (i : Instr) : (s.advance i).mem = s.mem := rfl
@[simp] theorem State.advance_status (s : State) (i : Instr) : (s.advance i).status = s.status := rfl
@[simp] theorem State.advance_stream (s : State) (i : Instr) : (s.advance i).stream = s.stream := rfl

/-! ### `raise` -/

@[simp] theorem State.raise_regs (s : State) (k : Fault) : (s.raise k).regs = s.regs := rfl
@[simp] theorem State.raise_zf (s : State) (k : Fault) : (s.raise k).zf = s.zf := rfl
@[simp] theorem State.raise_sf (s : State) (k : Fault) : (s.raise k).sf = s.sf := rfl
@[simp] theorem State.raise_ip (s : State) (k : Fault) : (s.raise k).ip = s.ip := rfl
@[simp] theorem State.raise_mem (s : State) (k : Fault) : (s.raise k).mem = s.mem := rfl
@[simp] theorem State.raise_status (s : State) (k : Fault) : (s.raise k).status = .faulted k s.ip := rfl
@[simp] theorem State.raise_stream (s : State) (k : Fault) : (s.raise k).stream = s.stream := rfl

/-! ### `halt` -/

@[simp] theorem State.halt_regs (s : State) : (s.halt).regs = s.regs := rfl
@[simp] theorem State.halt_zf (s : State) : (s.halt).zf = s.zf := rfl
@[simp] theorem State.halt_sf (s : State) : (s.halt).sf = s.sf := rfl
@[simp] theorem State.halt_ip (s : State) : (s.halt).ip = s.ip := rfl
@[simp] theorem State.halt_mem (s : State) : (s.halt).mem = s.mem := rfl
@[simp] theorem State.halt_status (s : State) : (s.halt).status = .halted := rfl
@[simp] theorem State.halt_stream (s : State) : (s.halt).stream = s.stream := rfl

/-! ### `launch` and `reset` -/

@[simp] theorem State.launch_regs (bs : List Byte) : (State.launch bs).regs = Vector.replicate 8 0 := rfl
@[simp] theorem State.launch_zf (bs : List Byte) : (State.launch bs).zf = false := rfl
@[simp] theorem State.launch_sf (bs : List Byte) : (State.launch bs).sf = false := rfl
@[simp] theorem State.launch_ip (bs : List Byte) : (State.launch bs).ip = 0 := rfl
@[simp] theorem State.launch_mem (bs : List Byte) : (State.launch bs).mem = [] := rfl
@[simp] theorem State.launch_status (bs : List Byte) : (State.launch bs).status = .running := rfl
@[simp] theorem State.launch_stream (bs : List Byte) : (State.launch bs).stream = bs := rfl

/-! ### Reads through the accessors -/

@[simp] theorem State.setReg_memByte (s : State) (i : RegField) (v : Word) (b : Nat) : (s.setReg i v).memByte b = s.memByte b := rfl
@[simp] theorem State.setMemByte_reg (s : State) (a : Nat) (v : Byte) (c : RegField) : (s.setMemByte a v).reg c = s.reg c := rfl
@[simp] theorem State.setFlags_reg (s : State) (z n : Bool) (c : RegField) : (s.setFlags z n).reg c = s.reg c := rfl
@[simp] theorem State.setFlags_memByte (s : State) (z n : Bool) (b : Nat) : (s.setFlags z n).memByte b = s.memByte b := rfl
@[simp] theorem State.addIp_reg (s : State) (d : Word) (c : RegField) : (s.addIp d).reg c = s.reg c := rfl
@[simp] theorem State.addIp_memByte (s : State) (d : Word) (b : Nat) : (s.addIp d).memByte b = s.memByte b := rfl
@[simp] theorem State.advance_reg (s : State) (i : Instr) (c : RegField) : (s.advance i).reg c = s.reg c := rfl
@[simp] theorem State.advance_memByte (s : State) (i : Instr) (b : Nat) : (s.advance i).memByte b = s.memByte b := rfl
@[simp] theorem State.raise_reg (s : State) (k : Fault) (c : RegField) : (s.raise k).reg c = s.reg c := rfl
@[simp] theorem State.raise_memByte (s : State) (k : Fault) (b : Nat) : (s.raise k).memByte b = s.memByte b := rfl
@[simp] theorem State.halt_reg (s : State) (c : RegField) : (s.halt).reg c = s.reg c := rfl
@[simp] theorem State.halt_memByte (s : State) (b : Nat) : (s.halt).memByte b = s.memByte b := rfl

@[simp] theorem State.launch_reg (bs : List Byte) (c : RegField) : (State.launch bs).reg c = 0 := by
  simp [State.reg]

@[simp] theorem State.launch_memByte (bs : List Byte) (a : Nat) : (State.launch bs).memByte a = unlistedByte := rfl

/-! ### Numbers of faults and of statuses (R200) -/

@[simp] theorem Status.code_running : Status.running.code = 0 := rfl
@[simp] theorem Status.code_halted : Status.halted.code = 0 := rfl
@[simp] theorem Status.code_faulted (kind : Fault) (offset : Word) : (Status.faulted kind offset).code = kind.code := rfl

theorem Fault.code_pos (f : Fault) : 0 < f.code := by cases f <;> decide

/-- The number tells the faults apart. -/
theorem Fault.code_injective {f g : Fault} (h : f.code = g.code) : f = g := by
  cases f <;> cases g <;> simp_all [Fault.code]

/-- A status has the number 0 exactly when it is no fault. -/
theorem Status.code_eq_zero (st : Status) : st.code = 0 ↔ ∀ kind offset, st ≠ .faulted kind offset := by
  cases st with
  | running => simp
  | halted => simp
  | faulted kind offset => simp [Nat.ne_of_gt kind.code_pos]

end Sys2Proof.Machine
end

