-- ==== Sys2Proof/Laws/Registers.lean ====
section
/-! SUPPORT. The register file: read after write, by cell, by half and by width (R21 to R26). -/

namespace Sys2Proof.Machine

theorem State.reg_setReg (s : State) (i j : RegField) (v : Word) :
    (s.setReg i v).reg j = if i = j then v else s.reg j := by
  simp [State.reg, State.setReg, Vector.getElem_set, Fin.ext_iff]

@[simp] theorem State.reg_setReg_self (s : State) (i : RegField) (v : Word) : (s.setReg i v).reg i = v := by
  simp [State.reg_setReg]

@[simp] theorem State.reg_setReg_ne (s : State) {i j : RegField} (v : Word) (h : j ≠ i) :
    (s.setReg i v).reg j = s.reg j := by
  simp [State.reg_setReg, h.symm]

/-! ### Halves of a word -/

@[simp] theorem halfOf_withHalf_self (h : Half) (v : Word) (b : Byte) : halfOf h (withHalf h v b) = b := by
  cases h <;> simp [halfOf, withHalf]

theorem halfOf_withHalf_ne {g h : Half} (hg : g ≠ h) (v : Word) (b : Byte) :
    halfOf g (withHalf h v b) = halfOf g v := by
  cases g <;> cases h <;> simp_all [halfOf, withHalf]

/-- A word is its two halves. -/
theorem word_eq_of_halves {v v' : Word} (h : ∀ g, halfOf g v = halfOf g v') : v = v' := by
  rw [← wordOfBytes_halves v, ← wordOfBytes_halves v']
  have hl := h .low
  have hh := h .high
  simp only [halfOf] at hl hh
  rw [hl, hh]

/-! ### RegRead and RegWrite -/

@[simp] theorem State.regRead_regWrite_self (s : State) (i : RegField) (w : Width) (v : BitVec w.bits) :
    (s.regWrite i w v).regRead i w = v := by
  cases w <;> simp [State.regRead, State.regWrite]

/-- A register write reaches the halves the register names and no other. -/
theorem State.regHalf_regWrite_outside (s : State) (i : RegField) (w : Width) (v : BitVec w.bits) {c : RegField}
    {h : Half} (hc : ¬ (Place.register i).coversHalf w c h) : (s.regWrite i w v).regHalf c h = s.regHalf c h := by
  cases w
  · simp only [Place.coversHalf, not_and] at hc
    by_cases e : c = byteCell i
    · subst e
      simp [State.regHalf, State.regWrite, halfOf_withHalf_ne (hc rfl)]
    · simp [State.regHalf, State.regWrite, e]
  · simp only [Place.coversHalf] at hc
    simp [State.regHalf, State.regWrite, hc]

theorem State.regWrite_zf (s : State) (i : RegField) (w : Width) (v : BitVec w.bits) : (s.regWrite i w v).zf = s.zf := by
  cases w <;> rfl

theorem State.regWrite_sf (s : State) (i : RegField) (w : Width) (v : BitVec w.bits) : (s.regWrite i w v).sf = s.sf := by
  cases w <;> rfl

theorem State.regWrite_ip (s : State) (i : RegField) (w : Width) (v : BitVec w.bits) : (s.regWrite i w v).ip = s.ip := by
  cases w <;> rfl

theorem State.regWrite_mem (s : State) (i : RegField) (w : Width) (v : BitVec w.bits) : (s.regWrite i w v).mem = s.mem := by
  cases w <;> rfl

theorem State.regWrite_status (s : State) (i : RegField) (w : Width) (v : BitVec w.bits) :
    (s.regWrite i w v).status = s.status := by
  cases w <;> rfl

theorem State.regWrite_stream (s : State) (i : RegField) (w : Width) (v : BitVec w.bits) :
    (s.regWrite i w v).stream = s.stream := by
  cases w <;> rfl

/-- A register write changes one cell at most (R25). -/
theorem State.reg_regWrite_ne (s : State) (i : RegField) (w : Width) (v : BitVec w.bits) {c : RegField}
    (hw : w = .word → c ≠ i) (hb : w = .byte → c ≠ byteCell i) : (s.regWrite i w v).reg c = s.reg c := by
  cases w
  · simp [State.regWrite, hb rfl]
  · simp [State.regWrite, hw rfl]

end Sys2Proof.Machine
end

