-- ==== Sys2Proof/Laws/Memory.lean ====
section
/-! SUPPORT. Data memory: read after write, and the canonical form is kept by every operation (R52, R56, R57). -/

namespace Sys2Proof.Machine

theorem Memory.wf_iff (m : Memory) :
    m.wf = true ↔ m.Pairwise (fun c d => c.1 < d.1) ∧ ∀ c ∈ m, c.2 ≠ unlistedByte ∧ c.1 < Config.memSize := by
  simp [Memory.wf]

theorem Memory.pairwise_of_wf {m : Memory} (h : m.wf) : m.Pairwise (fun c d => c.1 < d.1) := ((Memory.wf_iff m).mp h).1

/-- A byte below every listed address reads as unlisted. -/
theorem Memory.read_of_lt (m : Memory) (a : Nat) (h : ∀ c ∈ m, a < c.1) : m.read a = unlistedByte := by
  induction m with
  | nil => rfl
  | cons c rest ih =>
    have hc := h c (by simp)
    have hne : c.1 ≠ a := by omega
    simp only [Memory.read, hne, if_false]
    exact ih fun d hd => h d (by simp [hd])

theorem Memory.read_consByte (m : Memory) (a b : Nat) (v : Byte) (h : ∀ c ∈ m, a < c.1) :
    (Memory.consByte a v m).read b = if b = a then v else m.read b := by
  unfold Memory.consByte
  by_cases hv : v = unlistedByte
  · by_cases hb : b = a
    · subst hb
      simp [hv, Memory.read_of_lt m b h]
    · simp [hv, hb]
  · by_cases hb : b = a
    · simp [hv, hb, Memory.read]
    · simp [hv, hb, Memory.read, Ne.symm hb]

/-- Read after write, in a memory of rising addresses: the byte written at that address, any other byte as before. -/
theorem Memory.read_write (m : Memory) (a b : Nat) (v : Byte) (h : m.Pairwise (fun c d => c.1 < d.1)) :
    (m.write a v).read b = if b = a then v else m.read b := by
  induction m with
  | nil => simp [Memory.write, Memory.read_consByte]
  | cons c rest ih =>
    obtain ⟨hc, hrest⟩ := List.pairwise_cons.mp h
    simp only [Memory.write]
    split
    · next hlt =>
      rw [Memory.read_consByte]
      intro d hd
      rcases List.mem_cons.mp hd with rfl | hd
      · exact hlt
      · exact lt_trans hlt (hc d hd)
    · split
      · next heq =>
        subst heq
        rw [Memory.read_consByte _ _ _ _ hc]
        by_cases hb : b = c.1
        · simp [hb]
        · simp [hb, Memory.read, Ne.symm hb]
      · next hne =>
        simp only [Memory.read, ih hrest]
        by_cases hb : c.1 = b
        · have : b ≠ a := by omega
          simp [hb, this]
        · simp [hb]

theorem Memory.mem_write (m : Memory) (a : Nat) (v : Byte) {c : Host.Cell} (h : c ∈ m.write a v) :
    c ∈ m ∨ (c = (a, v) ∧ v ≠ unlistedByte) := by
  induction m with
  | nil =>
    simp only [Memory.write, Memory.consByte] at h
    split at h <;> simp_all
  | cons d rest ih =>
    simp only [Memory.write, Memory.consByte] at h
    split at h
    · split at h <;> simp_all
      tauto
    · split at h
      · split at h <;> simp_all
        tauto
      · rcases List.mem_cons.mp h with rfl | h
        · simp
        · rcases ih h with h | h
          · simp [h]
          · exact .inr h

theorem Memory.pairwise_write (m : Memory) (a : Nat) (v : Byte) (h : m.Pairwise (fun c d => c.1 < d.1)) :
    (m.write a v).Pairwise (fun c d => c.1 < d.1) := by
  induction m with
  | nil =>
    simp only [Memory.write, Memory.consByte]
    split <;> simp
  | cons d rest ih =>
    obtain ⟨hd, hrest⟩ := List.pairwise_cons.mp h
    simp only [Memory.write, Memory.consByte]
    split
    · next hlt =>
      split
      · exact h
      · refine List.pairwise_cons.mpr ⟨fun e he => ?_, h⟩
        rcases List.mem_cons.mp he with rfl | he
        · exact hlt
        · exact lt_trans hlt (hd e he)
    · next hge =>
      split
      · next heq =>
        subst heq
        split
        · exact hrest
        · exact List.pairwise_cons.mpr ⟨hd, hrest⟩
      · next hne =>
        refine List.pairwise_cons.mpr ⟨fun e he => ?_, ih hrest⟩
        rcases Memory.mem_write rest a v he with he | ⟨rfl, _⟩
        · exact hd e he
        · show d.1 < a
          omega

/-- Every write of a cell of `Mem` keeps the canonical form. -/
theorem Memory.write_wf (m : Memory) (a : Nat) (v : Byte) (h : m.wf) (ha : a < Config.memSize) : (m.write a v).wf := by
  rw [Memory.wf_iff] at h ⊢
  refine ⟨Memory.pairwise_write m a v h.1, fun c hc => ?_⟩
  rcases Memory.mem_write m a v hc with hc | ⟨rfl, hv⟩
  · exact h.2 c hc
  · exact ⟨hv, ha⟩

theorem State.reset_memory_wf : State.reset.mem.wf := by decide

/-! ### Bytes of a state -/

theorem State.memByte_setMemByte (s : State) (a b : Nat) (v : Byte) (h : s.mem.wf) :
    (s.setMemByte a v).memByte b = if b = a then v else s.memByte b :=
  Memory.read_write s.mem a b v (Memory.pairwise_of_wf h)

theorem State.setMemByte_wf (s : State) (a : Nat) (v : Byte) (h : s.mem.wf) (ha : a < Config.memSize) :
    (s.setMemByte a v).mem.wf :=
  Memory.write_wf s.mem a v h ha

/-! ### MemRead and MemWrite -/

theorem ea_in_range (addr : Word) : addr.toNat + 1 < Config.memSize := by
  have := addr.isLt
  simp only [Config.memSize]
  omega

theorem State.memWrite_wf (s : State) (addr : Word) (w : Width) (v : BitVec w.bits) (h : s.mem.wf) :
    (s.memWrite addr w v).mem.wf := by
  have hr := ea_in_range addr
  cases w
  · exact State.setMemByte_wf s _ _ h (by omega)
  · exact State.setMemByte_wf _ _ _ (State.setMemByte_wf s _ _ h (by omega)) hr

/-- The bytes of a memory write (R57): low byte at the address, high byte of a word at the next, no other. -/
theorem State.memByte_memWrite_byte (s : State) (addr : Word) (v : BitVec Width.byte.bits) (b : Nat)
    (h : s.mem.wf) : (s.memWrite addr .byte v).memByte b = if b = addr.toNat then v else s.memByte b :=
  State.memByte_setMemByte s addr.toNat b v h

theorem State.memByte_memWrite_word (s : State) (addr : Word) (v : BitVec Width.word.bits) (b : Nat)
    (h : s.mem.wf) : (s.memWrite addr .word v).memByte b =
      if b = addr.toNat + 1 then highByte v else if b = addr.toNat then lowByte v else s.memByte b := by
  have h1 := State.setMemByte_wf s addr.toNat (lowByte v) h (by have := ea_in_range addr; omega)
  show ((s.setMemByte _ _).setMemByte _ _).memByte b = _
  rw [State.memByte_setMemByte _ _ _ _ h1, State.memByte_setMemByte _ _ _ _ h]

@[simp] theorem State.memRead_memWrite_self (s : State) (addr : Word) (w : Width) (v : BitVec w.bits) (h : s.mem.wf) :
    (s.memWrite addr w v).memRead addr w = v := by
  cases w
  · simp [State.memRead, State.memByte_memWrite_byte, h]
  · simp [State.memRead, State.memByte_memWrite_word, h]

theorem State.memWrite_reg (s : State) (addr : Word) (w : Width) (v : BitVec w.bits) (c : RegField) :
    (s.memWrite addr w v).reg c = s.reg c := by
  cases w <;> rfl

theorem State.memWrite_zf (s : State) (addr : Word) (w : Width) (v : BitVec w.bits) : (s.memWrite addr w v).zf = s.zf := by
  cases w <;> rfl

theorem State.memWrite_sf (s : State) (addr : Word) (w : Width) (v : BitVec w.bits) : (s.memWrite addr w v).sf = s.sf := by
  cases w <;> rfl

theorem State.memWrite_ip (s : State) (addr : Word) (w : Width) (v : BitVec w.bits) : (s.memWrite addr w v).ip = s.ip := by
  cases w <;> rfl

theorem State.memWrite_status (s : State) (addr : Word) (w : Width) (v : BitVec w.bits) :
    (s.memWrite addr w v).status = s.status := by
  cases w <;> rfl

theorem State.memWrite_stream (s : State) (addr : Word) (w : Width) (v : BitVec w.bits) :
    (s.memWrite addr w v).stream = s.stream := by
  cases w <;> rfl

end Sys2Proof.Machine
end

