-- ==== Sys2Proof/Laws/Operands.lean ====
section
/-! SUPPORT. Operands: the effective address as a sum of words, reading an operand back after writing it, and all that a
write to an operand leaves alone (R148, R150, R151). -/

namespace Sys2Proof.Machine

/-! ### Effective address (R147, R148) -/

theorem State.ea_direct (s : State) (d : Word) : s.ea [] d = d := by
  simp [State.ea]

theorem State.ea_one (s : State) (c : RegField) (d : Word) : s.ea [c] d = s.reg c + d := by
  apply BitVec.eq_of_toNat_eq
  simp [State.ea]

theorem State.ea_two (s : State) (b c : RegField) (d : Word) : s.ea [b, c] d = s.reg b + s.reg c + d := by
  apply BitVec.eq_of_toNat_eq
  simp [State.ea]

/-- The address depends on the registers alone. -/
theorem State.ea_congr {s t : State} (h : ∀ c, t.reg c = s.reg c) (bs : List RegField) (d : Word) : t.ea bs d = s.ea bs d := by
  simp [State.ea, h]

/-! ### Writing a place -/

theorem State.writePlace_zf (s : State) (w : Width) (p : Place) (v : BitVec w.bits) : (s.writePlace w p v).zf = s.zf := by
  cases p
  · exact s.regWrite_zf _ _ _
  · exact s.memWrite_zf _ _ _

theorem State.writePlace_sf (s : State) (w : Width) (p : Place) (v : BitVec w.bits) : (s.writePlace w p v).sf = s.sf := by
  cases p
  · exact s.regWrite_sf _ _ _
  · exact s.memWrite_sf _ _ _

theorem State.writePlace_ip (s : State) (w : Width) (p : Place) (v : BitVec w.bits) : (s.writePlace w p v).ip = s.ip := by
  cases p
  · exact s.regWrite_ip _ _ _
  · exact s.memWrite_ip _ _ _

theorem State.writePlace_status (s : State) (w : Width) (p : Place) (v : BitVec w.bits) :
    (s.writePlace w p v).status = s.status := by
  cases p
  · exact s.regWrite_status _ _ _
  · exact s.memWrite_status _ _ _

theorem State.writePlace_stream (s : State) (w : Width) (p : Place) (v : BitVec w.bits) :
    (s.writePlace w p v).stream = s.stream := by
  cases p
  · exact s.regWrite_stream _ _ _
  · exact s.memWrite_stream _ _ _

theorem State.writePlace_wf (s : State) (w : Width) (p : Place) (v : BitVec w.bits) (h : s.mem.wf) :
    (s.writePlace w p v).mem.wf := by
  cases p
  · rwa [State.writePlace, State.regWrite_mem]
  · exact State.memWrite_wf s _ _ _ h

/-- What is written to a place is read back from it. -/
theorem State.readPlace_writePlace_self (s : State) (w : Width) (p : Place) (v : BitVec w.bits) (h : s.mem.wf) :
    (s.writePlace w p v).readPlace w p = v := by
  cases p with
  | register i => exact State.regRead_regWrite_self s i w v
  | memory bs d =>
    simp only [State.writePlace, State.readPlace]
    rw [State.ea_congr (fun c => s.memWrite_reg _ _ _ c), State.memRead_memWrite_self _ _ _ _ h]

theorem State.writePlace_sameControl (s : State) (w : Width) (p : Place) (v : BitVec w.bits) :
    SameControl s (s.writePlace w p v) :=
  ⟨s.writePlace_ip w p v, s.writePlace_status w p v, s.writePlace_stream w p v⟩

theorem State.writePlace_sameFlags (s : State) (w : Width) (p : Place) (v : BitVec w.bits) :
    SameFlags s (s.writePlace w p v) :=
  ⟨s.writePlace_zf w p v, s.writePlace_sf w p v⟩

theorem State.writePlace_sameRegsOutside (s : State) (w : Width) (p : Place) (v : BitVec w.bits) :
    SameRegsOutside p w s (s.writePlace w p v) := by
  intro c h hc
  cases p with
  | register i => exact State.regHalf_regWrite_outside s i w v hc
  | memory bs d => simp [State.regHalf, State.writePlace, State.memWrite_reg]

theorem State.writePlace_sameMemOutside (s : State) (w : Width) (p : Place) (v : BitVec w.bits) (h : s.mem.wf) :
    SameMemOutside p w s (s.writePlace w p v) := by
  intro a ha
  cases p with
  | register i =>
    show Memory.read _ _ = _
    rw [State.writePlace, State.regWrite_mem]
    rfl
  | memory bs d =>
    cases w with
    | byte =>
      have ha : a ≠ (s.ea bs d).toNat := ha
      simp only [State.writePlace, State.memByte_memWrite_byte _ _ _ _ h, if_neg ha]
    | word =>
      have ha : ¬ (a = (s.ea bs d).toNat ∨ a = (s.ea bs d).toNat + 1) := ha
      simp only [State.writePlace, State.memByte_memWrite_word _ _ _ _ h]
      rw [if_neg fun e => ha (.inr e), if_neg fun e => ha (.inl e)]

/-- A write to a place changes one cell at most (R153). -/
theorem State.writePlace_one_cell (s : State) (w : Width) (p : Place) (v : BitVec w.bits) :
    ∃ c, ∀ c', c' ≠ c → (s.writePlace w p v).reg c' = s.reg c' := by
  cases p with
  | memory bs d => exact ⟨0, fun c' _ => s.memWrite_reg _ _ _ c'⟩
  | register i =>
    cases w with
    | byte => exact ⟨byteCell i, fun c' hc => State.reg_regWrite_ne s i .byte v (by simp) fun _ => hc⟩
    | word => exact ⟨i, fun c' hc => State.reg_regWrite_ne s i .word v (fun _ => hc) (by simp)⟩

/-- No write reaches a cell above 0x10000 (R54). -/
theorem State.writePlace_high (s : State) (w : Width) (p : Place) (v : BitVec w.bits) (h : s.mem.wf) {a : Nat}
    (ha : 0x10000 < a) : (s.writePlace w p v).memByte a = s.memByte a := by
  refine State.writePlace_sameMemOutside s w p v h a fun hc => ?_
  cases p with
  | register i => exact hc
  | memory bs d =>
    have := (s.ea bs d).isLt
    cases w <;> simp only [Place.coversCell] at hc <;> omega

/-! ### MOV's copy (R160) -/

/-- All that a copy does. -/
theorem State.copy_copies (s : State) (w : Width) (dst : Place) (src : Source) (h : s.mem.wf) :
    Copies w dst (s.readSource w src) s (s.copy w dst src) :=
  ⟨s.readPlace_writePlace_self w dst _ h, s.writePlace_sameFlags w dst _, s.writePlace_sameRegsOutside w dst _,
    s.writePlace_sameMemOutside w dst _ h, s.writePlace_sameControl w dst _⟩

end Sys2Proof.Machine
end

