-- ==== Sys2Proof/Laws/Flags.lean ====
section
/-! SUPPORT. The ALU: its result as addition and subtraction of words, the flag function, and all that an ALU operation does
(R170 to R172). -/

namespace Sys2Proof.Machine

theorem AluOp.result_add {n : Nat} (a b : BitVec n) : AluOp.add.result a b = a + b := by
  simp [AluOp.result, AluOp.exact, BitVec.ofInt_add]

theorem AluOp.result_sub {n : Nat} (a b : BitVec n) : AluOp.sub.result a b = a - b := by
  simp [AluOp.result, AluOp.exact, Int.sub_eq_add_neg, BitVec.ofInt_add, BitVec.ofInt_neg, BitVec.sub_eq_add_neg]

theorem AluOp.result_cmp {n : Nat} (a b : BitVec n) : AluOp.cmp.result a b = a - b := AluOp.result_sub a b

theorem result_add_isSum {n : Nat} (a b : BitVec n) : IsSum a b (AluOp.add.result a b) := by
  rw [AluOp.result_add]
  exact BitVec.toNat_add a b

theorem result_sub_isDifference {n : Nat} (a b : BitVec n) : IsDifference a b (AluOp.sub.result a b) := by
  simp [IsDifference, AluOp.result, AluOp.exact, BitVec.toNat_ofInt]
  have h : (0 : Int) ≤ (a.toNat - b.toNat : Int) % 2 ^ n := Int.emod_nonneg _ (by positivity)
  omega

theorem result_cmp_isDifference {n : Nat} (a b : BitVec n) : IsDifference a b (AluOp.cmp.result a b) :=
  result_sub_isDifference a b

/-! ### The flag function (R172) -/

theorem zeroFlag_iff {n : Nat} (r : BitVec n) : zeroFlag r = true ↔ r.toNat = 0 := by
  simp [zeroFlag, BitVec.toNat_eq]

theorem signFlag_iff {n : Nat} (r : BitVec n) : signFlag r = true ↔ r.toInt < 0 := by
  simp [signFlag, BitVec.msb_eq_toInt]

theorem flagsTell_setFlags {n : Nat} (r : BitVec n) (s : State) :
    FlagsTell r (s.setFlags (zeroFlag r) (signFlag r)) :=
  ⟨zeroFlag_iff r, signFlag_iff r⟩

/-- The two flags of a result are never both set. -/
theorem flags_exclusive {n : Nat} (r : BitVec n) : ¬ (zeroFlag r = true ∧ signFlag r = true) := by
  rintro ⟨hz, hs⟩
  rw [zeroFlag_iff] at hz
  rw [signFlag_iff] at hs
  have : r = 0#n := BitVec.eq_of_toNat_eq (by simp [hz])
  subst this
  simp at hs

/-! ### The ALU operation (R170) -/

/-- The result an ALU operation computes in a state. -/
abbrev State.aluResult (s : State) (op : AluOp) (w : Width) (dst : Place) (src : Source) : BitVec w.bits :=
  op.result (s.readPlace w dst) (s.readSource w src)

theorem State.arith_add (s : State) (w : Width) (dst : Place) (src : Source) :
    s.arith .add w dst src = (s.writePlace w dst (s.aluResult .add w dst src)).setFlags
      (zeroFlag (s.aluResult .add w dst src)) (signFlag (s.aluResult .add w dst src)) := rfl

theorem State.arith_sub (s : State) (w : Width) (dst : Place) (src : Source) :
    s.arith .sub w dst src = (s.writePlace w dst (s.aluResult .sub w dst src)).setFlags
      (zeroFlag (s.aluResult .sub w dst src)) (signFlag (s.aluResult .sub w dst src)) := rfl

theorem State.arith_cmp (s : State) (w : Width) (dst : Place) (src : Source) :
    s.arith .cmp w dst src =
      s.setFlags (zeroFlag (s.aluResult .cmp w dst src)) (signFlag (s.aluResult .cmp w dst src)) := rfl

theorem State.readPlace_setFlags (s : State) (z n : Bool) (w : Width) (p : Place) :
    (s.setFlags z n).readPlace w p = s.readPlace w p := by
  cases p <;> cases w <;> rfl

theorem State.readSource_setFlags (s : State) (z n : Bool) (w : Width) (src : Source) :
    (s.setFlags z n).readSource w src = s.readSource w src := by
  cases src
  · exact s.readPlace_setFlags z n w _
  · rfl

theorem State.writePlace_setFlags (s : State) (z n : Bool) (w : Width) (p : Place) (v : BitVec w.bits) :
    (s.setFlags z n).writePlace w p v = (s.writePlace w p v).setFlags z n := by
  cases p <;> cases w <;> rfl

/-- A written result with its flags is all an ADD or SUB does. -/
theorem State.stores_result (s : State) (w : Width) (dst : Place) (r : BitVec w.bits) (h : s.mem.wf) :
    Stores w dst r s ((s.writePlace w dst r).setFlags (zeroFlag r) (signFlag r)) := by
  refine ⟨?_, flagsTell_setFlags r _, s.writePlace_sameRegsOutside w dst r, s.writePlace_sameMemOutside w dst r h,
    s.writePlace_sameControl w dst r⟩
  rw [State.readPlace_setFlags]
  exact s.readPlace_writePlace_self w dst r h

theorem State.arith_add_stores (s : State) (w : Width) (dst : Place) (src : Source) (h : s.mem.wf) :
    Stores w dst (s.aluResult .add w dst src) s (s.arith .add w dst src) := s.stores_result w dst _ h

theorem State.arith_sub_stores (s : State) (w : Width) (dst : Place) (src : Source) (h : s.mem.wf) :
    Stores w dst (s.aluResult .sub w dst src) s (s.arith .sub w dst src) := s.stores_result w dst _ h

theorem State.arith_cmp_compares (s : State) (w : Width) (dst : Place) (src : Source) :
    Compares w (s.aluResult .cmp w dst src) s (s.arith .cmp w dst src) :=
  ⟨flagsTell_setFlags _ s, fun _ => rfl, fun _ => rfl, rfl, rfl, rfl⟩

/-- An ALU operation writes the destination, or nothing, and then both flags. -/
theorem State.arith_cases (s : State) (op : AluOp) (w : Width) (dst : Place) (src : Source) :
    ∃ u r, (u = s ∨ u = s.writePlace w dst r) ∧ s.arith op w dst src = u.setFlags (zeroFlag r) (signFlag r) := by
  cases op
  · exact ⟨_, _, .inr rfl, s.arith_add w dst src⟩
  · exact ⟨_, _, .inr rfl, s.arith_sub w dst src⟩
  · exact ⟨_, _, .inl rfl, s.arith_cmp w dst src⟩

end Sys2Proof.Machine
end

