-- ==== Sys2Proof/Laws/Exec.lean ====
section
/-! SUPPORT. The meanings, one inversion lemma for all of them: an executed instruction copies, computes or jumps. -/

namespace Sys2Proof.Machine

/-- Every meaning answers a next state. -/
theorem exec_answers (i : Instr) (s : State) : ∃ t, exec i s = .next t := by
  cases i with
  | jne d =>
    simp only [exec, execJne]
    split <;> exact ⟨_, rfl⟩
  | _ => exact ⟨_, rfl⟩

/-- What JNE leaves (R190). -/
theorem execJne_eq (d : Byte) (s : State) : execJne d s = .next (if s.zf = true then s else s.addIp (sext16 d)) := by
  unfold execJne
  split <;> simp_all

/-- All that an executed instruction can do: a MOV form copies, an ADD, SUB or CMP form is one ALU operation, JNE moves
`ip` or does nothing. -/
theorem exec_cases {i : Instr} {s t : State} (h : exec i s = .next t) :
    (i.isMov = true ∧ ∃ w dst src, t = s.copy w dst src) ∨
    (i.isArith = true ∧ ∃ op w dst src, t = s.arith op w dst src) ∨
    (∃ d, i = .jne d ∧ t = if s.zf = true then s else s.addIp (sext16 d)) := by
  cases i with
  | jne d =>
    right; right
    rw [exec, execJne_eq] at h
    injection h with h
    exact ⟨d, rfl, h.symm⟩
  | movRegMem | movImmRegMem | movImmReg | movMemAcc | movAccMem =>
    left
    injection h with h
    exact ⟨rfl, _, _, _, h.symm⟩
  | addRegMem | addImmRegMem | addImmAcc | subRegMem | subImmRegMem | subImmAcc | cmpRegMem | cmpImmRegMem | cmpImmAcc =>
    right; left
    injection h with h
    exact ⟨rfl, _, _, _, _, h.symm⟩

/-- The state after a meaning is the state before, or a write to a place in it, with flags that are kept or tell one result,
and `ip` kept or moved by a jump. -/
theorem exec_shape {i : Instr} {s t : State} (h : exec i s = .next t) :
    (∃ w p v, t = s.writePlace w p v) ∨
    (∃ u w r, (u = s ∨ ∃ p, u = s.writePlace w p r) ∧ t = u.setFlags (zeroFlag r) (signFlag r)) ∨
    t = s ∨ (∃ d, t = s.addIp d) := by
  rcases exec_cases h with ⟨_, w, dst, src, rfl⟩ | ⟨_, op, w, dst, src, rfl⟩ | ⟨d, _, rfl⟩
  · exact .inl ⟨w, dst, _, rfl⟩
  · obtain ⟨u, r, hu, ht⟩ := s.arith_cases op w dst src
    exact .inr (.inl ⟨u, w, r, hu.imp_right fun e => ⟨dst, e⟩, ht⟩)
  · right; right
    by_cases hz : s.zf = true
    · exact .inl (if_pos hz)
    · exact .inr ⟨_, if_neg hz⟩

theorem exec_status {i : Instr} {s t : State} (h : exec i s = .next t) : t.status = s.status := by
  rcases exec_shape h with ⟨w, p, v, rfl⟩ | ⟨u, w, r, rfl | ⟨p, rfl⟩, rfl⟩ | rfl | ⟨d, rfl⟩ <;>
    simp [State.writePlace_status]

theorem exec_stream {i : Instr} {s t : State} (h : exec i s = .next t) : t.stream = s.stream := by
  rcases exec_shape h with ⟨w, p, v, rfl⟩ | ⟨u, w, r, rfl | ⟨p, rfl⟩, rfl⟩ | rfl | ⟨d, rfl⟩ <;>
    simp [State.writePlace_stream]

theorem exec_wf {i : Instr} {s t : State} (h : exec i s = .next t) (hm : s.mem.wf) : t.mem.wf := by
  rcases exec_shape h with ⟨w, p, v, rfl⟩ | ⟨u, w, r, rfl | ⟨p, rfl⟩, rfl⟩ | rfl | ⟨d, rfl⟩ <;>
    simp [State.writePlace_wf, hm]

theorem exec_high {i : Instr} {s t : State} (h : exec i s = .next t) (hm : s.mem.wf) {a : Nat} (ha : 0x10000 < a) :
    t.memByte a = s.memByte a := by
  rcases exec_shape h with ⟨w, p, v, rfl⟩ | ⟨u, w, r, rfl | ⟨p, rfl⟩, rfl⟩ | rfl | ⟨d, rfl⟩ <;>
    simp [State.writePlace_high, hm, ha]

end Sys2Proof.Machine
end

