-- ==== Sys2Proof/Laws/PerInstr.lean ====
section
/-! SUPPORT. The laws stated of every instruction as syntax, one lemma per constructor: EncodeSize, the encoding has exactly
`size_bytes` bytes (R87). -/

namespace Sys2Proof.Laws.EncodeSize

/-- The encoding of an instruction has the length R87 gives it. -/
def Statement (i : Instr) : Prop := (encode i).length = i.size

theorem movRegMem (d : Direction) (w : Width) (reg : RegField) (rm : RmOperand) :
    Statement (.movRegMem d w reg rm) := by
  simp [Statement, encode, encodeRM, Instr.size]
  omega

theorem movImmRegMem (w : Width) (rm : RmOperand) (data : Word) : Statement (.movImmRegMem w rm data) := by
  simp [Statement, encode, Instr.size]
  omega

theorem movImmReg (w : Width) (reg : RegField) (data : Word) : Statement (.movImmReg w reg data) := by
  simp [Statement, encode, Instr.size]
  omega

theorem movMemAcc (w : Width) (addr : Word) : Statement (.movMemAcc w addr) := by
  rfl

theorem movAccMem (w : Width) (addr : Word) : Statement (.movAccMem w addr) := by
  rfl

theorem addRegMem (d : Direction) (w : Width) (reg : RegField) (rm : RmOperand) :
    Statement (.addRegMem d w reg rm) := by
  simp [Statement, encode, encodeRM, Instr.size]
  omega

theorem addImmRegMem (s : Bool) (w : Width) (rm : RmOperand) (data : Word) :
    Statement (.addImmRegMem s w rm data) := by
  simp [Statement, encode, encodeArithIRM, Instr.size]
  omega

theorem addImmAcc (w : Width) (data : Word) : Statement (.addImmAcc w data) := by
  simp [Statement, encode, encodeIA, Instr.size]
  omega

theorem subRegMem (d : Direction) (w : Width) (reg : RegField) (rm : RmOperand) :
    Statement (.subRegMem d w reg rm) := by
  simp [Statement, encode, encodeRM, Instr.size]
  omega

theorem subImmRegMem (s : Bool) (w : Width) (rm : RmOperand) (data : Word) :
    Statement (.subImmRegMem s w rm data) := by
  simp [Statement, encode, encodeArithIRM, Instr.size]
  omega

theorem subImmAcc (w : Width) (data : Word) : Statement (.subImmAcc w data) := by
  simp [Statement, encode, encodeIA, Instr.size]
  omega

theorem cmpRegMem (d : Direction) (w : Width) (reg : RegField) (rm : RmOperand) :
    Statement (.cmpRegMem d w reg rm) := by
  simp [Statement, encode, encodeRM, Instr.size]
  omega

theorem cmpImmRegMem (s : Bool) (w : Width) (rm : RmOperand) (data : Word) :
    Statement (.cmpImmRegMem s w rm data) := by
  simp [Statement, encode, encodeArithIRM, Instr.size]
  omega

theorem cmpImmAcc (w : Width) (data : Word) : Statement (.cmpImmAcc w data) := by
  simp [Statement, encode, encodeIA, Instr.size]
  omega

theorem jne (disp8 : Byte) : Statement (.jne disp8) := by
  rfl

end Sys2Proof.Laws.EncodeSize
end

