-- ==== Sys2Proof/Laws/Formats.lean ====
section
/-! SUPPORT. One lemma per format of the decoder: what it reads from the bytes its encoder writes, what those it accepts look
like, and which errors it can give; and the length of every instruction. -/

namespace Sys2Proof

/-! ### The first byte chooses the format (R88, R112) -/

theorem decode_cons {b0 : Byte} {e : TableEntry} (h : firstByteEntry b0 = some e) (bs : List Byte) :
    decode (b0 :: bs) = decodeEntry e b0 bs := by
  simp [decode, h]

theorem widthBit_seven (op : BitVec 7) (w : Width) : Width.ofBit ((op ++ Width.bit w : Byte).getLsbD 0) = w := by
  revert op
  cases w <;> decide

theorem widthBit_six (op : BitVec 6) (d : BitVec 1) (w : Width) :
    Width.ofBit ((op ++ d ++ Width.bit w : Byte).getLsbD 0) = w := by
  revert op d
  cases w <;> decide

theorem directionBit (op : BitVec 6) (d : Direction) (w : Width) :
    Direction.ofBit ((op ++ Direction.bit d ++ Width.bit w : Byte).getLsbD 1) = d := by
  revert op
  cases d <;> cases w <;> decide

theorem signBit (op : BitVec 6) (s : Bool) (w : Width) :
    (op ++ BitVec.ofBool s ++ Width.bit w : Byte).getLsbD 1 = s := by
  revert op
  cases s <;> cases w <;> decide

/-! ### Reading what the encoder writes (R81 to R85) -/

theorem decodeRM_encode (form : Direction → Width → RegField → RmOperand → Instr) (op : BitVec 6) (d : Direction)
    (w : Width) (reg : RegField) (rm : RmOperand) (rest : List Byte) (h : rm.wellFormed = true) :
    decodeRM form (op ++ d.bit ++ w.bit) (modeByte rm.modBits reg.bits rm.rmBits :: (rm.dispBytes ++ rest)) =
      .ok (form d w reg rm, rest) := by
  simp only [decodeRM, directionBit, widthBit_six, takeByte_cons, andThen_ok, modField_modeByte, regField_modeByte,
    rmField_modeByte, takeRmOperand_encode _ _ h, RegField.toFin_bits]

theorem decodeIA_encode (form : Width → Word → Instr) (op : BitVec 7) (w : Width) (data : Word) (rest : List Byte)
    (h : dataFits w data = true) : decodeIA form (op ++ w.bit) (dataBytes w data ++ rest) = .ok (form w data, rest) := by
  simp only [decodeIA, widthBit_seven, takeData_encode _ _ _ h, andThen_ok]

theorem decodeMA_encode (form : Width → Word → Instr) (op : BitVec 7) (w : Width) (addr : Word) (rest : List Byte) :
    decodeMA form (op ++ w.bit) (wordBytes addr ++ rest) = .ok (form w addr, rest) := by
  simp only [decodeMA, widthBit_seven, takeWord_wordBytes, andThen_ok]

theorem decodeIR_encode (w : Width) (reg : RegField) (data : Word) (rest : List Byte) (h : dataFits w data = true) :
    decodeIR (0b1011#4 ++ w.bit ++ reg.bits) (dataBytes w data ++ rest) = .ok (.movImmReg w reg data, rest) := by
  have hw : Width.ofBit ((0b1011#4 ++ Width.bit w ++ reg.bits : Byte).getLsbD 3) = w := by
    clear h
    revert reg
    cases w <;> decide
  have hr : rmField (0b1011#4 ++ Width.bit w ++ reg.bits : Byte) = reg := by
    clear h hw
    revert reg
    cases w <;> decide
  simp only [decodeIR, hw, hr, takeData_encode _ _ _ h, andThen_ok]

theorem decodeMovIRM_encode (w : Width) (rm : RmOperand) (data : Word) (rest : List Byte) (h : rm.wellFormed = true)
    (hd : dataFits w data = true) :
    decodeMovIRM (0b1100011#7 ++ w.bit)
      (modeByte rm.modBits 0b000 rm.rmBits :: (rm.dispBytes ++ (dataBytes w data ++ rest))) =
        .ok (.movImmRegMem w rm data, rest) := by
  simp only [decodeMovIRM, widthBit_seven, takeByte_cons, andThen_ok, modField_modeByte, regField_modeByte,
    rmField_modeByte, takeRmOperand_encode _ _ h, takeData_encode _ _ _ hd]
  rfl

theorem decodeArithIRM_encode {ext : RegField} {form : Bool → Width → RmOperand → Word → Instr}
    (hf : arithForm ext = some form) (s : Bool) (w : Width) (rm : RmOperand) (data : Word) (rest : List Byte)
    (h : rm.wellFormed = true) (hd : arithDataFits s w data = true) :
    decodeArithIRM (0b100000#6 ++ BitVec.ofBool s ++ w.bit)
      (modeByte rm.modBits ext.bits rm.rmBits :: (rm.dispBytes ++ (arithDataBytes s w data ++ rest))) =
        .ok (form s w rm data, rest) := by
  simp only [decodeArithIRM, signBit, widthBit_six, takeByte_cons, andThen_ok, modField_modeByte, regField_modeByte,
    rmField_modeByte, takeRmOperand_encode _ _ h, takeArithData_encode _ _ _ _ hd, hf, RegField.toFin_bits]

/-! ### What is accepted is what the encoder writes -/

/-- A mode byte from the `rm` operand taken from it and its middle field. -/
theorem modeByte_of_operand {b1 : Byte} {rm : RmOperand} (hm : rm.modBits = BitVec.ofFin (modField b1))
    (hr : rm.rmBits = RegField.bits (rmField b1)) :
    b1 = modeByte rm.modBits (RegField.bits (regField b1)) rm.rmBits := by
  rw [hm, hr]
  exact (modeByte_fields b1).symm

theorem decodeRM_eq_ok {form : Direction → Width → RegField → RmOperand → Instr} {b0 : Byte} {bs rest : List Byte}
    {i : Instr} (h : decodeRM form b0 bs = .ok (i, rest)) :
    ∃ reg rm, i = form (Direction.ofBit (b0.getLsbD 1)) (Width.ofBit (b0.getLsbD 0)) reg rm ∧ rm.wellFormed = true ∧
      bs = modeByte rm.modBits (RegField.bits reg) rm.rmBits :: rm.dispBytes ++ rest := by
  obtain ⟨b1, bs1, h1, h⟩ := andThen_eq_ok.mp h
  obtain ⟨rm, bs2, h2, h⟩ := andThen_eq_ok.mp h
  cases h
  obtain ⟨hw, hbs, hm, hr⟩ := takeRmOperand_eq_ok h2
  refine ⟨_, rm, rfl, hw, ?_⟩
  rw [takeByte_eq_ok.mp h1, hbs, ← modeByte_of_operand hm hr]
  rfl

theorem decodeIA_eq_ok {form : Width → Word → Instr} {b0 : Byte} {bs rest : List Byte} {i : Instr}
    (h : decodeIA form b0 bs = .ok (i, rest)) :
    ∃ data, i = form (Width.ofBit (b0.getLsbD 0)) data ∧ dataFits (Width.ofBit (b0.getLsbD 0)) data = true ∧
      bs = dataBytes (Width.ofBit (b0.getLsbD 0)) data ++ rest := by
  obtain ⟨data, bs1, h1, h⟩ := andThen_eq_ok.mp h
  cases h
  exact ⟨data, rfl, takeData_eq_ok h1⟩

theorem decodeMA_eq_ok {form : Width → Word → Instr} {b0 : Byte} {bs rest : List Byte} {i : Instr}
    (h : decodeMA form b0 bs = .ok (i, rest)) :
    ∃ addr, i = form (Width.ofBit (b0.getLsbD 0)) addr ∧ bs = wordBytes addr ++ rest := by
  obtain ⟨addr, bs1, h1, h⟩ := andThen_eq_ok.mp h
  cases h
  exact ⟨addr, rfl, takeWord_eq_ok.mp h1⟩

theorem decodeArithIRM_eq_ok {b0 : Byte} {bs rest : List Byte} {i : Instr} (h : decodeArithIRM b0 bs = .ok (i, rest)) :
    ∃ ext form rm data, arithForm ext = some form ∧
      i = form (b0.getLsbD 1) (Width.ofBit (b0.getLsbD 0)) rm data ∧ rm.wellFormed = true ∧
      arithDataFits (b0.getLsbD 1) (Width.ofBit (b0.getLsbD 0)) data = true ∧
      bs = modeByte rm.modBits (RegField.bits ext) rm.rmBits ::
        (rm.dispBytes ++ arithDataBytes (b0.getLsbD 1) (Width.ofBit (b0.getLsbD 0)) data) ++ rest := by
  obtain ⟨b1, bs1, h1, h⟩ := andThen_eq_ok.mp h
  cases hf : arithForm (regField b1) with
  | none =>
    rw [hf] at h
    cases h
  | some form =>
    rw [hf] at h
    obtain ⟨rm, bs2, h2, h⟩ := andThen_eq_ok.mp h
    obtain ⟨data, bs3, h3, h⟩ := andThen_eq_ok.mp h
    cases h
    obtain ⟨hw, hbs, hm, hr⟩ := takeRmOperand_eq_ok h2
    obtain ⟨hd, hbs'⟩ := takeArithData_eq_ok h3
    refine ⟨_, form, rm, data, hf, rfl, hw, hd, ?_⟩
    rw [takeByte_eq_ok.mp h1, hbs, hbs', ← modeByte_of_operand hm hr]
    simp

/-- The three forms of the arithmetic group. -/
theorem arithForm_eq_some : ∀ {ext : RegField} {form : Bool → Width → RmOperand → Word → Instr},
    arithForm ext = some form →
    ext = 0 ∧ form = .addImmRegMem ∨ ext = 5 ∧ form = .subImmRegMem ∨ ext = 7 ∧ form = .cmpImmRegMem := by
  intro ext form h
  unfold arithForm at h
  split at h <;> (cases h <;> simp)

/-! ### The only error past the first byte and the extension is Truncated (R113) -/

theorem takeWord_error {bs : List Byte} {e : DecodeError} (h : takeWord bs = .error e) : e = .truncated :=
  (takeWord_eq_error.mp h).2

theorem takeByte_error {bs : List Byte} {e : DecodeError} (h : takeByte bs = .error e) : e = .truncated :=
  (takeByte_eq_error.mp h).2

theorem takeRmOperand_error {m : Fin 4} {r : RegField} {bs : List Byte} {e : DecodeError}
    (h : takeRmOperand m r bs = .error e) : e = .truncated := by
  unfold takeRmOperand at h
  split at h
  · split at h
    · rcases andThen_eq_error.mp h with h | ⟨_, _, _, h⟩
      · exact takeWord_error h
      · cases h
    · cases h
  · rcases andThen_eq_error.mp h with h | ⟨_, _, _, h⟩
    · exact takeByte_error h
    · cases h
  · rcases andThen_eq_error.mp h with h | ⟨_, _, _, h⟩
    · exact takeWord_error h
    · cases h
  · cases h

theorem takeData_error {w : Width} {bs : List Byte} {e : DecodeError} (h : takeData w bs = .error e) :
    e = .truncated := by
  cases w
  · rcases andThen_eq_error.mp h with h | ⟨_, _, _, h⟩
    · exact takeByte_error h
    · cases h
  · exact takeWord_error h

theorem takeArithData_error {s : Bool} {w : Width} {bs : List Byte} {e : DecodeError}
    (h : takeArithData s w bs = .error e) : e = .truncated := by
  cases s <;> cases w
  · exact takeData_error (w := .byte) h
  · exact takeData_error (w := .word) h
  · exact takeData_error (w := .byte) h
  · rcases andThen_eq_error.mp h with h | ⟨_, _, _, h⟩
    · exact takeByte_error h
    · cases h

/-! ### Lengths (R87) -/

/-- The encoding of an instruction has its size. -/
theorem encode_length (i : Instr) : (encode i).length = i.size := by
  cases i with
  | movRegMem => exact Laws.EncodeSize.movRegMem ..
  | movImmRegMem => exact Laws.EncodeSize.movImmRegMem ..
  | movImmReg => exact Laws.EncodeSize.movImmReg ..
  | movMemAcc => exact Laws.EncodeSize.movMemAcc ..
  | movAccMem => exact Laws.EncodeSize.movAccMem ..
  | addRegMem => exact Laws.EncodeSize.addRegMem ..
  | addImmRegMem => exact Laws.EncodeSize.addImmRegMem ..
  | addImmAcc => exact Laws.EncodeSize.addImmAcc ..
  | subRegMem => exact Laws.EncodeSize.subRegMem ..
  | subImmRegMem => exact Laws.EncodeSize.subImmRegMem ..
  | subImmAcc => exact Laws.EncodeSize.subImmAcc ..
  | cmpRegMem => exact Laws.EncodeSize.cmpRegMem ..
  | cmpImmRegMem => exact Laws.EncodeSize.cmpImmRegMem ..
  | cmpImmAcc => exact Laws.EncodeSize.cmpImmAcc ..
  | jne => exact Laws.EncodeSize.jne ..

theorem size_range (i : Instr) : 2 ≤ i.size ∧ i.size ≤ 6 := by
  cases i with
  | movRegMem d w r rm | addRegMem d w r rm | subRegMem d w r rm | cmpRegMem d w r rm =>
    have := rm.dispLen_le
    simp only [Instr.size]
    omega
  | movImmRegMem w rm d =>
    have := rm.dispLen_le
    have := w.bytes_range
    simp only [Instr.size]
    omega
  | addImmRegMem b w rm d | subImmRegMem b w rm d | cmpImmRegMem b w rm d =>
    have := rm.dispLen_le
    have := arithImmLen_range b w
    simp only [Instr.size]
    omega
  | movImmReg w _ _ | addImmAcc w _ | subImmAcc w _ | cmpImmAcc w _ =>
    have := w.bytes_range
    simp only [Instr.size]
    omega
  | movMemAcc | movAccMem | jne =>
    simp only [Instr.size]
    omega

end Sys2Proof
end

