-- ==== Sys2Proof/Laws/Step.lean ====
section
/-! SUPPORT. The step: what each case of R141 answers, one inversion lemma, and the induction over a run packaged once. -/

namespace Sys2Proof.Machine

/-! ### The cases of a step (R141) -/

theorem engineStep_stopped (forms : List FormPattern) {s : State} (h : s.status ≠ .running) : engineStep forms s = .next s := by
  unfold engineStep
  split <;> simp_all

theorem engineStep_overlong (forms : List FormPattern) {s : State} (h : s.status = .running)
    (hl : Config.streamMax < s.stream.length) : engineStep forms s = .refused .streamTooLong := by
  simp [engineStep, h, hl]

theorem engineStep_end (forms : List FormPattern) {s : State} (h : s.status = .running) (hl : s.LegalStream)
    (he : s.stream.length ≤ s.ip.toNat) : engineStep forms s = .next s.halt := by
  have := Nat.not_lt.mpr hl
  simp [engineStep, h, this, he]

theorem engineStep_fetches (forms : List FormPattern) {s : State} (h : s.Fetches) :
    engineStep forms s = fetchAndRun forms s := by
  obtain ⟨hr, hl, hip⟩ := h
  have := Nat.not_lt.mpr hl
  have := Nat.not_le.mpr hip
  simp [engineStep, *]

theorem fetchAndRun_error (forms : List FormPattern) {s : State} {e : DecodeError}
    (h : decodeOne s.stream s.ip.toNat = .error e) : fetchAndRun forms s = .next (s.raise (faultOfDecode e)) := by
  simp [fetchAndRun, h]

theorem fetchAndRun_unsupported (forms : List FormPattern) {s : State} {i : Instr}
    (h : decodeOne s.stream s.ip.toNat = .ok i) (hf : isUnsupported forms i = true) :
    fetchAndRun forms s = .next (s.raise .unsupportedOperation) := by
  simp [fetchAndRun, h, hf]

theorem fetchAndRun_exec (forms : List FormPattern) {s : State} {i : Instr}
    (h : decodeOne s.stream s.ip.toNat = .ok i) (hf : isUnsupported forms i = false) :
    fetchAndRun forms s = exec i (s.advance i) := by
  simp [fetchAndRun, h, hf]

@[simp] theorem isUnsupported_default (i : Instr) : isUnsupported Config.unsupportedForms i = false := rfl

/-- All that a step can do, over any set of unsupported forms. -/
theorem engineStep_cases {forms : List FormPattern} {s t : State} (h : engineStep forms s = .next t) :
    (s.status ≠ .running ∧ t = s) ∨
    (s.status = .running ∧ s.LegalStream ∧ s.stream.length ≤ s.ip.toNat ∧ t = s.halt) ∨
    (s.Fetches ∧ ∃ e, decodeOne s.stream s.ip.toNat = .error e ∧ t = s.raise (faultOfDecode e)) ∨
    (s.Fetches ∧ ∃ i, decodeOne s.stream s.ip.toNat = .ok i ∧ isUnsupported forms i = true ∧
      t = s.raise .unsupportedOperation) ∨
    (s.Fetches ∧ ∃ i, decodeOne s.stream s.ip.toNat = .ok i ∧ isUnsupported forms i = false ∧
      exec i (s.advance i) = .next t) := by
  by_cases hr : s.status = .running
  · by_cases hl : s.LegalStream
    · by_cases he : s.stream.length ≤ s.ip.toNat
      · rw [engineStep_end forms hr hl he] at h
        injection h with h
        exact .inr (.inl ⟨hr, hl, he, h.symm⟩)
      · have hf : s.Fetches := ⟨hr, hl, Nat.lt_of_not_le he⟩
        rw [engineStep_fetches forms hf] at h
        cases hd : decodeOne s.stream s.ip.toNat with
        | error e =>
          rw [fetchAndRun_error forms hd] at h
          injection h with h
          exact .inr (.inr (.inl ⟨hf, e, rfl, h.symm⟩))
        | ok i =>
          cases hu : isUnsupported forms i with
          | true =>
            rw [fetchAndRun_unsupported forms hd hu] at h
            injection h with h
            exact .inr (.inr (.inr (.inl ⟨hf, i, rfl, hu, h.symm⟩)))
          | false =>
            rw [fetchAndRun_exec forms hd hu] at h
            exact .inr (.inr (.inr (.inr ⟨hf, i, rfl, hu, h⟩)))
    · rw [engineStep_overlong forms hr (Nat.lt_of_not_le hl)] at h
      nomatch h
  · rw [engineStep_stopped forms hr] at h
    injection h with h
    exact .inl ⟨hr, h.symm⟩

/-- All that a step of the machine can do. -/
theorem step_cases {s t : State} (h : step s = .next t) :
    (s.status ≠ .running ∧ t = s) ∨
    (s.status = .running ∧ s.LegalStream ∧ s.stream.length ≤ s.ip.toNat ∧ t = s.halt) ∨
    (s.Fetches ∧ ∃ e, decodeOne s.stream s.ip.toNat = .error e ∧ t = s.raise (faultOfDecode e)) ∨
    (s.Fetches ∧ ∃ i, decodeOne s.stream s.ip.toNat = .ok i ∧ exec i (s.advance i) = .next t) := by
  rcases engineStep_cases h with h | h | h | ⟨_, i, _, hu, _⟩ | ⟨hf, i, hd, _, he⟩
  · exact .inl h
  · exact .inr (.inl h)
  · exact .inr (.inr (.inl h))
  · simp at hu
  · exact .inr (.inr (.inr ⟨hf, i, hd, he⟩))

/-- A step changes no byte of the stream. -/
theorem engineStep_stream {forms : List FormPattern} {s t : State} (h : engineStep forms s = .next t) :
    t.stream = s.stream := by
  rcases engineStep_cases h with ⟨_, rfl⟩ | ⟨_, _, _, rfl⟩ | ⟨_, _, _, rfl⟩ | ⟨_, _, _, _, rfl⟩ | ⟨_, i, _, _, he⟩
  · rfl
  · rfl
  · rfl
  · rfl
  · exact (exec_stream he).trans rfl

/-! ### Runs -/

theorem reaches_zero {s t : State} : Reaches 0 s t ↔ s = t := by
  constructor
  · intro h
    injection h
  · rintro rfl
    rfl

theorem reaches_succ {k : Nat} {s t : State} : Reaches (k + 1) s t ↔ ∃ u, step s = .next u ∧ Reaches k u t := by
  have e : Host.Core.run core (k + 1) s =
      Host.Outcome.rec (motive := fun _ => Host.Outcome State Fault Refusal) (fun u => Host.Core.run core k u) .fault
        .refused (step s) := by
    simp only [Host.Core.run, show core.step s = step s from rfl]
    cases step s <;> rfl
  unfold Reaches
  rw [e]
  cases step s with
  | next u =>
    constructor
    · exact fun h => ⟨u, rfl, h⟩
    · rintro ⟨u', hu, h⟩
      injection hu with hu
      exact hu ▸ h
  | fault r =>
    constructor
    · exact fun h => nomatch h
    · exact fun ⟨_, hu, _⟩ => nomatch hu
  | refused r =>
    constructor
    · exact fun h => nomatch h
    · exact fun ⟨_, hu, _⟩ => nomatch hu

/-- What every step keeps, a run of any number of steps keeps. -/
theorem Reaches.keeps {P : State → Prop} (hstep : ∀ s t, P s → step s = .next t → P t) :
    ∀ {k : Nat} {s t : State}, P s → Reaches k s t → P t
  | 0, _, _, hs, h => reaches_zero.mp h ▸ hs
  | _ + 1, _, _, hs, h =>
    let ⟨_, hu, ht⟩ := reaches_succ.mp h
    Reaches.keeps hstep (hstep _ _ hs hu) ht

end Sys2Proof.Machine
end

