-- ==== Sys2Proof/Tests/Slice0.lean ====
section
/-! SUPPORT. The model's own tests: ill-formed terms refused, words written out from the encodings of 30_encoding.md, single
steps whose expected values are the spec's vectors (95_test_vectors.md, named V, X, S or P), and for every obligation with
hypotheses a witness that meets them. -/

namespace Sys2Proof.Tests

open Sys2Proof Sys2Proof.Machine

/-! ### WellFormed refuses what no encoding gives -/

theorem test_wellFormed_refuses_bp_without_displacement : (Instr.movRegMem .regIsDest .word 0 (.mem .bp)).wellFormed = false := by
  decide

theorem test_wellFormed_refuses_wide_byte_immediate :
    (Instr.movImmReg .byte 0 0x0100).wellFormed = false ∧ (Instr.movImmRegMem .byte (.reg 0) 0xFFFF).wellFormed = false ∧
    (Instr.addImmAcc .byte 0x0100).wellFormed = false ∧ (Instr.cmpImmRegMem true .byte (.reg 0) 0x0100).wellFormed = false := by
  decide

theorem test_wellFormed_refuses_word_immediate_not_sign_extended :
    (Instr.subImmRegMem true .word (.reg 0) 0x0080).wellFormed = false ∧
    (Instr.subImmRegMem true .word (.reg 0) 0xFF80).wellFormed = true := by
  decide

/-! ### Decoding: one word of each row, bit by bit from R80 and the format tables -/

theorem test_decode_movRegMem : -- V1: 100010 d=0 w=1, 11 011 000
    decodeOne [0b10001001, 0b11011000] 0 = .ok (.movRegMem .rmIsDest .word 3 (.reg 0)) := by decide

theorem test_decode_movImmRegMem : -- V13: 1100011 w=0, 00 000 110
    decodeOne [0b11000110, 0b00000110, 0x00, 0x10, 0x7F] 0 = .ok (.movImmRegMem .byte (.direct 0x1000) 0x007F) := by decide

theorem test_decode_movImmReg : -- V21: 1011 w=0 100
    decodeOne [0b10110100, 0x12] 0 = .ok (.movImmReg .byte 4 0x0012) := by decide

theorem test_decode_movMemAcc : -- V26: 1010000 w=1
    decodeOne [0b10100001, 0x00, 0x10] 0 = .ok (.movMemAcc .word 0x1000) := by decide

theorem test_decode_movAccMem : -- V27: 1010001 w=0
    decodeOne [0b10100010, 0xFF, 0xFF] 0 = .ok (.movAccMem .byte 0xFFFF) := by decide

theorem test_decode_addRegMem : -- V35: 000000 d=1 w=1, 00 011 110
    decodeOne [0b00000011, 0b00011110, 0x00, 0x10] 0 = .ok (.addRegMem .regIsDest .word 3 (.direct 0x1000)) := by decide

theorem test_decode_addImmRegMem : -- V39: 100000 s=1 w=1, 11 000 011
    decodeOne [0b10000011, 0b11000011, 0xFF] 0 = .ok (.addImmRegMem true .word (.reg 3) 0xFFFF) := by decide

theorem test_decode_addImmAcc : -- V45: 0000010 w=1
    decodeOne [0b00000101, 0x00, 0x80] 0 = .ok (.addImmAcc .word 0x8000) := by decide

theorem test_decode_subRegMem : -- V48: 001010 d=1 w=1, 11 011 000
    decodeOne [0b00101011, 0b11011000] 0 = .ok (.subRegMem .regIsDest .word 3 (.reg 0)) := by decide

theorem test_decode_subImmRegMem : -- X82: 100000 s=0 w=0, 01 101 111
    decodeOne [0b10000000, 0b01101111, 0x01, 0x02] 0 = .ok (.subImmRegMem false .byte (.memDisp8 .bx 1) 2) := by decide

theorem test_decode_subImmAcc : -- X84: 0010110 w=0
    decodeOne [0b00101100, 0x01] 0 = .ok (.subImmAcc .byte 1) := by decide

theorem test_decode_cmpRegMem : -- X94: 001110 d=0 w=0, 00 100 111
    decodeOne [0b00111000, 0b00100111] 0 = .ok (.cmpRegMem .rmIsDest .byte 4 (.mem .bx)) := by decide

theorem test_decode_cmpImmRegMem : -- X98: 100000 s=0 w=1, 00 111 110
    decodeOne [0b10000001, 0b00111110, 0x00, 0x10, 0x34, 0x12] 0 =
      .ok (.cmpImmRegMem false .word (.direct 0x1000) 0x1234) := by decide

theorem test_decode_cmpImmAcc : -- X103: 0011110 w=1
    decodeOne [0b00111101, 0x08, 0x00] 0 = .ok (.cmpImmAcc .word 8) := by decide

theorem test_decode_jne : -- X110: 01110101
    decodeOne [0b01110101, 0xFC] 0 = .ok (.jne 0xFC) := by decide

theorem test_decode_base_slots : -- the eight rm values with mod = 00, section 2.1 of the vectors
    [0x00, 0x01, 0x02, 0x03, 0x04, 0x05, 0x07].map (fun b1 => (decodeOne [0x8B, b1] 0).map fun i => i.operands.2) =
      [[3, 6], [3, 7], [5, 6], [5, 7], [6], [7], [3]].map fun terms => .ok (.memory terms 0) := by decide

theorem test_decode_refuses_neighbours : -- S1
    [0x06, 0x2E, 0x3E, 0x74, 0x76, 0x84, 0x8C, 0xA4, 0xC4, 0xC5, 0xC8, 0xAF, 0xC0].all
      (fun b0 => decide (decodeOne [b0, 0, 0, 0, 0, 0] 0 = .error .unknownOpcode)) = true := by decide

theorem test_decode_error_order : -- V94, V105, V107
    decodeOne [0x81, 0x08] 0 = .error .unknownOpcode ∧ decodeOne [0xC7, 0x06, 0x00, 0x10, 0x34] 0 = .error .truncated ∧
    decodeOne [0x83, 0x47] 0 = .error .truncated := by decide

theorem test_walk : -- S2, the first three instructions of P3
    (walk [0xBB, 0x00, 0x10, 0xBE, 0x02, 0x00, 0xC7, 0x40, 0x04, 0x34, 0x12] 11 0).map (·.map Prod.fst) = .ok [0, 3, 6] := by
  decide

/-! ### Words of the opcode table -/

theorem test_decodeTableWord_reads_first_byte_high : decodeTableWord 16 0x75FC = some (.jne 0xFC) := by decide

theorem test_decodeTableWord_zero_operands : decodeTableWord 16 0xC706 = some (.movImmRegMem .word (.direct 0) 0) := by decide

/-- The outcome is a next state that passes the check. -/
def nextHas (o : Host.Outcome State Fault Refusal) (p : State → Bool) : Bool :=
  match o with
  | .next t => p t
  | .fault _ => false
  | .refused _ => false

theorem test_withFetchWord_runs_the_word :
    nextHas (step (State.reset.withFetchWord 16 0x83C0)) (fun t => t.ip == 3 && t.zf && t.status == .running) = true := by decide

theorem test_withFetchWord_past_the_stream :
    nextHas (step ({ State.reset with ip := 9 }.withFetchWord 16 0x75FE)) (fun t => t.ip == 9) = true := by decide

/-! ### Single steps -/

/-- A reset state about to run the bytes, with the registers and bytes of memory given. -/
def start (bytes : List Byte) (regs : List (RegField × Word)) (cells : List (Nat × Byte)) : State :=
  cells.foldl (fun s c => s.setMemByte c.1 c.2) (regs.foldl (fun s r => s.setReg r.1 r.2) (State.launch bytes))

/-- Both flags and `ip`. -/
def leaves (zf sf : Bool) (ip : Word) (t : State) : Bool := t.zf == zf && t.sf == sf && t.ip == ip

theorem test_movRegMem_load_uses_old_base : -- R161: `mov bx, [bx + si]`
    nextHas (step (start [0x8B, 0x18] [(3, 0x0100), (6, 0x0010)] [(0x0110, 0x34), (0x0111, 0x12)]))
      (fun t => t.reg 3 == 0x1234 && t.ip == 2) = true := by decide

theorem test_movRegMem_high_half : -- S3 as an instruction: `mov ah, bl` leaves AL
    nextHas (step (start [0x88, 0xDC] [(0, 0x12FF), (3, 0x77AB)] [])) (fun t => t.reg 0 == 0xABFF) = true := by decide

theorem test_movImmRegMem_word_at_top : -- X20
    nextHas (step (start [0xC7, 0x06, 0xFF, 0xFF, 0x34, 0x12] [] []))
      (fun t => t.mem == [(0xFFFF, 0x34), (0x10000, 0x12)] && t.ip == 6) = true := by decide

theorem test_movImmReg_low_half_keeps_high : -- S3 step 4
    nextHas (step (start [0xB0, 0xFF] [(0, 0x1234)] [])) (fun t => t.reg 0 == 0x12FF && t.ip == 2) = true := by decide

theorem test_movMemAcc_byte_keeps_ah :
    nextHas (step (start [0xA0, 0x07, 0x10] [(0, 0x3400)] [(0x1007, 0x12)])) (fun t => t.reg 0 == 0x3412) = true := by decide

theorem test_movAccMem_word : -- P3, offset 17
    nextHas (step (start [0xA3, 0x00, 0x20] [(0, 0x3412)] [])) (fun t => t.mem == [(0x2000, 0x12), (0x2001, 0x34)]) = true := by
  decide

theorem test_addRegMem_no_carry_into_high_half : -- X46
    nextHas (step (start [0x00, 0xE0] [(0, 0x01FF)] [])) (fun t => t.reg 0 == 0x0100 && leaves true false 2 t) = true := by
  decide

theorem test_addRegMem_to_its_own_base : -- X49: the sum wraps to zero and both listed bytes leave the list
    nextHas (step (start [0x01, 0x1F] [(3, 0x2000)] [(0x2001, 0xE0)])) (fun t => t.mem == [] && leaves true false 2 t) = true := by
  decide

theorem test_addImmRegMem_sign_extended : -- X56
    nextHas (step (start [0x83, 0xC0, 0x80] [(0, 0x0100)] [])) (fun t => t.reg 0 == 0x0080 && leaves false false 3 t) = true := by
  decide

theorem test_addImmRegMem_word_at_top : -- X60
    nextHas (step (start [0x81, 0x06, 0xFF, 0xFF, 0x01, 0x00] [] [(0xFFFF, 0xFF)]))
      (fun t => t.mem == [(0x10000, 0x01)] && leaves false false 6 t) = true := by decide

theorem test_addImmAcc_byte : -- X61
    nextHas (step (start [0x04, 0x01] [(0, 0x12FF)] [])) (fun t => t.reg 0 == 0x1200 && leaves true false 2 t) = true := by decide

theorem test_subRegMem_destination_minus_source : -- X72
    nextHas (step (start [0x2B, 0xD8] [(0, 0x0003), (3, 0x0005)] []))
      (fun t => t.reg 3 == 2 && t.reg 0 == 3 && leaves false false 2 t) = true := by decide

theorem test_subRegMem_memory_borrow : -- X78
    nextHas (step (start [0x29, 0x07] [(0, 0x0001), (3, 0x2000)] []))
      (fun t => t.mem == [(0x2000, 0xFF), (0x2001, 0xFF)] && leaves false true 2 t) = true := by decide

theorem test_subImmRegMem_byte_result_zero : -- X83
    nextHas (step (start [0x80, 0xE9, 0x01] [(1, 0x0301)] [])) (fun t => t.reg 1 == 0x0300 && leaves true false 3 t) = true := by
  decide

theorem test_subImmAcc_sign_clear : -- X86
    nextHas (step (start [0x2D, 0x01, 0x00] [(0, 0x8000)] [])) (fun t => t.reg 0 == 0x7FFF && leaves false false 3 t) = true := by
  decide

theorem test_cmpRegMem_memory_unchanged : -- X94
    nextHas (step (start [0x38, 0x27] [(0, 0x4100), (3, 0x2000)] [(0x2000, 0x40)]))
      (fun t => t.mem == [(0x2000, 0x40)] && leaves false true 2 t) = true := by decide

theorem test_cmpImmRegMem_equal : -- X98
    nextHas (step (start [0x81, 0x3E, 0x00, 0x10, 0x34, 0x12] [] [(0x1000, 0x34), (0x1001, 0x12)])) (leaves true false 6) = true := by
  decide

theorem test_cmpImmAcc_ah_does_not_enter : -- X101
    nextHas (step (start [0x3C, 0x41] [(0, 0xFF41)] [])) (fun t => t.reg 0 == 0xFF41 && leaves true false 2 t) = true := by decide

theorem test_jne_taken_wraps : -- X111
    nextHas (step (start [0x75, 0xFC] [] [])) (fun t => t.ip == 65534 && t.status == .running) = true := by decide

theorem test_jne_not_taken : -- X110
    nextHas (step ((start [0x75, 0xFC] [] []).setFlags true false)) (fun t => t.ip == 2) = true := by decide

theorem test_fault_is_precise : -- X133, at its second instruction
    nextHas (step { start [0xB8, 0x01, 0x00, 0x81, 0x08] [(0, 1)] [] with ip := 3 })
      (fun t => t == { start [0xB8, 0x01, 0x00, 0x81, 0x08] [(0, 1)] [] with ip := 3, status := .faulted .unknownOpcode 3 }) =
        true := by decide

theorem test_empty_stream_halts : -- X134
    nextHas (step State.reset) (fun t => t == { State.reset with status := .halted }) = true := by decide

theorem test_unsupported_form : -- X135
    nextHas (engineStep [{ opcode := some .addRegMem }] (start [0x01, 0xD8] [(0, 5), (3, 3)] []))
      (fun t => t == { start [0x01, 0xD8] [(0, 5), (3, 3)] [] with status := .faulted .unsupportedOperation 0 }) = true := by decide

theorem test_fault_codes : [Fault.unknownOpcode, .truncated, .unsupportedOperation].map Fault.code = [1, 2, 3] := by decide -- R200

theorem test_status_codes : -- R200: 0 for no fault
    [Status.running, .halted, .faulted .truncated 3].map Status.code = [0, 0, 2] := by decide

theorem test_memory_stays_canonical :
    (start [] [] [(7, 1), (3, 2), (5, 3), (3, 0)]).mem = [(5, 3), (7, 1)] ∧ Memory.wf [(5, 3), (7, 1)] = true ∧
    Memory.wf [(7, 1), (5, 3)] = false ∧ Memory.wf [(5, 0)] = false ∧ Memory.wf [(0x100000, 1)] = false := by decide

/-! ### Witnesses: every hypothesis of an obligation is met -/

/-- `add ax, bx` at offset 0, with a byte in memory. -/
def addAxBx : State := start [0x01, 0xD8] [(0, 0xFFFF), (3, 1)] [(0x10000, 7)]

/-- `jne` to itself at offset 0. -/
def selfJump : State := start [0x75, 0xFE] [] []

/-- `jne` at offset 0 to before the stream. -/
def backJump : State := start [0x75, 0x80] [] []

theorem fetches_of {s : State} (h : (decide (s.status = .running) && decide (s.stream.length ≤ 65535) &&
    decide (s.ip.toNat < s.stream.length)) = true) : s.Fetches := by
  simpa [State.Fetches, State.LegalStream, and_assoc] using h

theorem witness_RegReadReadsCellOrHalf :
    (3 : RegField).val ≤ 3 ∧ (0 : RegField).val + 4 = (4 : RegField).val ∧ (3 : RegField).val + 4 = (7 : RegField).val ∧
    (addAxBx.regRead 3 .byte).toNat = (addAxBx.reg 3).toNat % 256 ∧
    (addAxBx.regRead 4 .byte).toNat = (addAxBx.reg 0).toNat / 256 := by decide

theorem witness_RegWriteReplacesCellOrHalf :
    (3 : RegField).val ≤ 3 ∧ (0 : RegField).val + 4 = (4 : RegField).val ∧ (3 : RegField).val + 4 = (7 : RegField).val ∧
    (1 : RegField) ≠ 0 ∧ (addAxBx.regWrite 4 .byte 0).reg 0 = 0x00FF := by decide

theorem witness_ByteWritesNeverReachSpBpSiDi : 4 ≤ (4 : RegField).val ∧ 4 ≤ (7 : RegField).val := by decide

theorem witness_MemWriteStoresLittleEndian :
    addAxBx.mem.wf = true ∧ (0 : Nat) ≠ (0xFFFF : Word).toNat ∧ (0 : Nat) ≠ (0xFFFF : Word).toNat + 1 ∧
    (addAxBx.memWrite 0xFFFF .word 0x1234).memByte 0x10000 = 0x12 := by decide

theorem witness_MixedWidthAccessesAgree :
    addAxBx.mem.wf = true ∧ (65534 : Word).toNat < 65535 ∧ ¬ (65535 : Word).toNat < 65535 := by decide

theorem witness_EffectiveAddressOfEveryBaseList :
    (start [] [(3, 0x0010), (6, 0x0002)] []).reg 3 = 0x0010 ∧ (start [] [(3, 0x0010), (6, 0x0002)] []).reg 6 = 0x0002 := by
  decide

/-- `mov ax, bx` in a stream of its own, supported and unsupported. -/
theorem witness_MovFormsCopySource :
    let s := start [0x89, 0xD8] [(3, 0x1234)] [(0x10000, 7)]
    let i := Instr.movRegMem .rmIsDest .word 3 (.reg 0)
    s.mem.wf = true ∧ i.isMov = true ∧ s.Fetches ∧ decodeOne s.stream s.ip.toNat = .ok i ∧ isUnsupported [] i = false ∧
    isUnsupported [{ dst := some .register }] i = true :=
  ⟨by decide, by decide, fetches_of (by decide), by decide, by decide, by decide⟩

theorem witness_AddFormsStoreSumAndSetFlags : addAxBx.mem.wf = true ∧ addAxBx.mem ≠ [] := by decide

theorem witness_SubFormsStoreDifferenceAndSetFlags : addAxBx.mem.wf = true ∧ addAxBx.mem ≠ [] := by decide

theorem witness_FlagsWrittenByArithmeticAloneAfresh :
    (Instr.cmpImmAcc .byte 0x41).isArith = true ∧ (Instr.movMemAcc .word 0xFFFF).isMov = true := by decide

theorem witness_ByteAccumulatorFormsIgnoreHighHalf :
    Instr.cmpImmAcc .byte 0x41 = .addImmAcc .byte 0x41 ∨ Instr.cmpImmAcc .byte 0x41 = .subImmAcc .byte 0x41 ∨
    Instr.cmpImmAcc .byte 0x41 = .cmpImmAcc .byte 0x41 := by decide

theorem witness_JneAddsDisplacementWhenZeroFlagClear :
    selfJump.Fetches ∧ decodeOne selfJump.stream selfJump.ip.toNat = .ok (.jne 0xFE) ∧ selfJump.zf = false ∧
    (selfJump.setFlags true false).zf = true :=
  ⟨fetches_of (by decide), by decide, by decide, by decide⟩

theorem witness_TakenJumpContinuesAtTarget :
    backJump.Fetches ∧ decodeOne backJump.stream backJump.ip.toNat = .ok (.jne 0x80) ∧ backJump.zf = false ∧
    nextHas (step backJump) (fun t => decide (backJump.stream.length ≤ t.ip.toNat)) = true ∧
    nextHas (step selfJump) (fun t => decide (t.ip.toNat < selfJump.stream.length)) = true :=
  ⟨fetches_of (by decide), by decide, by decide, by decide, by decide⟩

theorem witness_WrappedJumpHaltsOnShortStream :
    backJump.Fetches ∧ backJump.stream.length ≤ 65408 ∧ decodeOne backJump.stream backJump.ip.toNat = .ok (.jne 0x80) ∧
    backJump.zf = false ∧ (backJump.ip.toNat : Int) + 2 + (0x80#8).toInt < 0 :=
  ⟨fetches_of (by decide), by decide, by decide, by decide, by decide⟩

/-- The boundary of the stream's length: 65 408 bytes, with the jump at their start. -/
theorem witness_WrappedJumpHaltsOnShortStream_longest :
    (start (0x75 :: 0x80 :: List.replicate 65406 0) [] []).stream.length ≤ 65408 := by
  show (0x75 :: 0x80 :: List.replicate 65406 (0 : Byte)).length ≤ 65408
  rw [List.length_cons, List.length_cons, List.length_replicate]

theorem witness_SelfJumpNeverEnds :
    selfJump.Fetches ∧ decodeOne selfJump.stream selfJump.ip.toNat = .ok (.jne 0xFE) ∧ selfJump.zf = false :=
  ⟨fetches_of (by decide), by decide, by decide⟩

theorem legal_of {s : State} (h : decide (s.stream.length ≤ 65535) = true) : s.LegalStream := by
  simpa [State.LegalStream] using h

theorem witness_StepFollowsTheCycle_stopped : addAxBx.halt.LegalStream ∧ addAxBx.halt.status ≠ .running :=
  ⟨legal_of (by decide), by decide⟩

theorem witness_StepFollowsTheCycle_end :
    let s := addAxBx.addIp 2
    s.LegalStream ∧ s.status = .running ∧ s.stream.length ≤ s.ip.toNat :=
  ⟨legal_of (by decide), by decide, by decide⟩

theorem witness_StepFollowsTheCycle_errors :
    let s := start [0xF4] [] []
    let t := start [0xB8, 0x05] [] []
    s.Fetches ∧ decodeOne s.stream s.ip.toNat = .error .unknownOpcode ∧
    t.Fetches ∧ decodeOne t.stream t.ip.toNat = .error .truncated :=
  ⟨fetches_of (by decide), by decide, fetches_of (by decide), by decide⟩

theorem witness_StepFollowsTheCycle_decoded :
    let i := Instr.addRegMem .rmIsDest .word 3 (.reg 0)
    addAxBx.Fetches ∧ decodeOne addAxBx.stream addAxBx.ip.toNat = .ok i ∧
    (∃ p ∈ [({ wide := some true } : FormPattern)], p.accepts i.form = true) ∧
    (∀ p ∈ [({ wide := some false } : FormPattern)], p.accepts i.form = false) :=
  ⟨fetches_of (by decide), by decide, by decide, by decide⟩

theorem witness_StepRunsDecodedInstruction :
    addAxBx.Fetches ∧ decodeOne addAxBx.stream addAxBx.ip.toNat = .ok (.addRegMem .rmIsDest .word 3 (.reg 0)) :=
  ⟨fetches_of (by decide), by decide⟩

/-- The advance that ends exactly at the end of the stream. -/
theorem witness_AdvanceNeverWraps :
    addAxBx.Fetches ∧ decodeOne addAxBx.stream addAxBx.ip.toNat = .ok (.addRegMem .rmIsDest .word 3 (.reg 0)) ∧
    addAxBx.ip.toNat + (Instr.addRegMem .rmIsDest .word 3 (.reg 0)).size = addAxBx.stream.length :=
  ⟨fetches_of (by decide), by decide, by decide⟩

theorem witness_IpStateMachine_stopped :
    addAxBx.halt.LegalStream ∧ engineStep [] addAxBx.halt = .next addAxBx.halt ∧ addAxBx.halt.status ≠ .running :=
  ⟨legal_of (by decide), rfl, by decide⟩

theorem witness_IpStateMachine_end :
    let s := addAxBx.addIp 2
    s.LegalStream ∧ engineStep [] s = .next s.halt ∧ s.status = .running ∧ s.stream.length ≤ s.ip.toNat :=
  ⟨legal_of (by decide), rfl, by decide, by decide⟩

theorem witness_IpStateMachine_error :
    let s := start [0xF4] [] []
    s.Fetches ∧ engineStep [] s = .next (s.raise .unknownOpcode) ∧ decodeOne s.stream s.ip.toNat = .error .unknownOpcode :=
  ⟨fetches_of (by decide), by rfl, by decide⟩

theorem witness_IpStateMachine_executed :
    let i := Instr.addRegMem .rmIsDest .word 3 (.reg 0)
    addAxBx.Fetches ∧ (∃ t, engineStep [] addAxBx = .next t) ∧ decodeOne addAxBx.stream addAxBx.ip.toNat = .ok i ∧
    i.isArith = true ∧ isUnsupported [] i = false ∧ isUnsupported [{}] i = true :=
  ⟨fetches_of (by decide), ⟨_, rfl⟩, by decide, by decide, by decide, by decide⟩

theorem witness_IpStateMachine_jump :
    selfJump.Fetches ∧ (∃ t, engineStep [] selfJump = .next t) ∧
    decodeOne selfJump.stream selfJump.ip.toNat = .ok (.jne 0xFE) ∧ selfJump.zf = false ∧
    (∃ t, engineStep [] (selfJump.setFlags true false) = .next t) ∧ (selfJump.setFlags true false).zf = true :=
  ⟨fetches_of (by decide), ⟨_, rfl⟩, by decide, by decide, ⟨_, rfl⟩, by decide⟩

theorem witness_StoppedEngineNeverChanges : addAxBx.halt.Ended ∧ (addAxBx.raise .truncated).Ended := by
  simp [State.Ended]

theorem witness_FaultsArePrecise_decode :
    let s := start [0xB8, 0x05] [] []
    s.status = .running ∧ engineStep [] s = .next (s.raise .truncated) ∧
    (s.raise .truncated).status = .faulted .truncated 0 :=
  ⟨by decide, by rfl, by decide⟩

theorem witness_FaultsArePrecise_unsupported :
    addAxBx.status = .running ∧ engineStep [{}] addAxBx = .next (addAxBx.raise .unsupportedOperation) ∧
    (addAxBx.raise .unsupportedOperation).status = .faulted .unsupportedOperation 0 :=
  ⟨by decide, by rfl, by decide⟩

theorem witness_EveryStepOfLegalStreamAnswersNext : addAxBx.LegalStream ∧ addAxBx.status = .running :=
  ⟨legal_of (by decide), by decide⟩

theorem witness_UnsupportedFormFaultsBeforeAnyChange :
    let i := Instr.addRegMem .rmIsDest .word 3 (.reg 0)
    addAxBx.Fetches ∧ decodeOne addAxBx.stream addAxBx.ip.toNat = .ok i ∧
    (∃ p ∈ [({ opcode := some .addRegMem } : FormPattern)], p.accepts i.form = true) ∧
    addAxBx.status = .running ∧ ∃ t, step addAxBx = .next t :=
  ⟨fetches_of (by decide), by decide, by decide, by decide, ⟨_, rfl⟩⟩

/-- One byte too long. -/
theorem witness_OverlongStreamIsRefused :
    (State.launch (List.replicate 65536 0x90)).status = .running ∧
    65535 < (State.launch (List.replicate 65536 0x90)).stream.length :=
  ⟨rfl, Nat.lt_of_lt_of_eq (by decide) List.length_replicate.symm⟩

theorem witness_StreamIsReadOnly : ∃ t, Reaches 2 addAxBx t ∧ t.status = .halted := ⟨_, rfl, rfl⟩

theorem witness_HighCellsAreNeverTouched : addAxBx.mem.wf = true ∧ (∃ t, Reaches 2 addAxBx t) ∧ 0x10000 < 0x10001 :=
  ⟨by decide, ⟨_, rfl⟩, by decide⟩

theorem witness_SignFlagNeverSteersARun : ∃ t, Reaches 2 addAxBx t ∧ addAxBx.withSf true ≠ addAxBx :=
  ⟨_, rfl, by decide⟩

theorem inv_launch {bytes : List Byte} (h : bytes.length ≤ 65535) : (State.launch bytes).Inv :=
  ⟨h, rfl, fun _ _ => rfl, by simp [State.FlagsExclusive], trivial⟩

/-- The state after `mov byte [0x1000], 0x7f`: a state of the invariant that is no start state, and a step from it. -/
theorem witness_EveryStepKeepsInvariant :
    (State.launch [0xC6, 0x06, 0x00, 0x10, 0x7F]).Inv ∧
    nextHas (step (State.launch [0xC6, 0x06, 0x00, 0x10, 0x7F])) (fun t => t.mem == [(0x1000, 0x7F)]) = true :=
  ⟨inv_launch (by decide), by decide⟩

theorem witness_RunsStartInInvariant : (List.replicate 65535 (0x90 : Byte)).length ≤ 65535 :=
  List.length_replicate.le

theorem witness_EveryRunOfLegalStreamCompletesInInvariant : (List.replicate 65535 (0x90 : Byte)).length ≤ 65535 :=
  List.length_replicate.le

theorem witness_DecodeOfEncode :
    (Instr.cmpImmRegMem true .word (.memDisp16 .bpDi 0xFFFF) 0xFF80).wellFormed = true ∧
    (Instr.cmpImmRegMem false .word (.memDisp16 .bpDi 0xFFFF) 0xFFFF).wellFormed = true ∧
    (Instr.movImmReg .byte 7 0x00FF).wellFormed = true := by decide

theorem witness_EncodeOfDecode :
    decode [0x81, 0x87, 0x00, 0x01, 0x34, 0x12, 0x90] =
      .ok (.addImmRegMem false .word (.memDisp16 .bx 0x0100) 0x1234, [0x90]) := by decide

theorem witness_WalkConsumesStreamExactly :
    ∀ i ∈ [Instr.jne 0xFE, .addImmRegMem false .word (.memDisp16 .bx 0x0100) 0x1234], i.wellFormed = true := by decide

theorem witness_DecodingDependsOnBytesAlone : (Instr.jne 0xFE).wellFormed = true := by decide

theorem witness_DecodedSizeIsTwoToSixBytes :
    decode [0x75, 0xFE, 0x90] = .ok (.jne 0xFE, [0x90]) ∧
    decode [0x81, 0x87, 0x00, 0x01, 0x34, 0x12] =
      .ok (.addImmRegMem false .word (.memDisp16 .bx 0x0100) 0x1234, []) := by decide

theorem witness_DisplacementLengths :
    takeRmOperand 0 6 [0x34, 0x12] = .ok (.direct 0x1234, []) ∧ takeRmOperand 0 7 [0x34] = .ok (.mem .bx, [0x34]) ∧
    takeRmOperand 1 6 [0xFF] = .ok (.memDisp8 .bp 0xFF, []) ∧ takeRmOperand 2 6 [0, 1] = .ok (.memDisp16 .bp 0x0100, []) ∧
    takeRmOperand 3 6 [] = .ok (.reg 6, []) ∧
    (0b001110#6, Instr.cmpRegMem) ∈ [(0b100010#6, Instr.movRegMem), (0b000000#6, Instr.addRegMem),
      (0b001010#6, Instr.subRegMem), (0b001110#6, Instr.cmpRegMem)] :=
  ⟨by decide, by decide, by decide, by decide, by decide, by simp⟩

theorem witness_UnknownOpcodeExactlyForIllegalEncodings :
    decode [0x06] = .error .unknownOpcode ∧ decode [0x80, 0x08] = .error .unknownOpcode ∧
    decode [0x83, 0x30] = .error .unknownOpcode ∧ decode [0xC6, 0x08] = .error .unknownOpcode ∧
    decode [0xC7, 0x38] = .error .unknownOpcode := by decide

theorem witness_TruncatedExactlyForProperPrefixes :
    decode [] = .error .truncated ∧ decode [0x75] = .error .truncated ∧
    (Instr.jne 0).wellFormed = true ∧ 0 < (Instr.jne 0).size ∧ 1 < (Instr.jne 0).size := by decide

theorem witness_RedundantEncodingsExecuteIdentically :
    (Instr.addRegMem .regIsDest .word 3) ∈ [Instr.movRegMem .regIsDest .word 3, fun rm => .movImmRegMem .word rm 1,
      Instr.addRegMem .regIsDest .word 3, fun rm => .addImmRegMem true .word rm 1] := by simp

end Sys2Proof.Tests
end

section
/-! PROOFS. The state (10_state.md): the register file by byte name, replacing the flags, and stopped engines; then the
statements of that family. -/

namespace Sys2Proof.Machine

/-! ### Byte register names: cell and half (R23) -/

theorem byteCell_eq_self {i : RegField} (h : i.val ≤ 3) : byteCell i = i := by
  apply Fin.ext
  show i.val % 4 = i.val
  omega

theorem byteCell_eq_of_add_four {i k : RegField} (h : k.val + 4 = i.val) : byteCell i = k := by
  apply Fin.ext
  show i.val % 4 = k.val
  omega

theorem byteCell_lt_four (i : RegField) : (byteCell i).val < 4 := Nat.mod_lt _ (by decide)

theorem byteHalf_eq_low {i : RegField} (h : i.val ≤ 3) : byteHalf i = .low := if_pos (by omega)

theorem byteHalf_eq_high {i k : RegField} (h : k.val + 4 = i.val) : byteHalf i = .high := if_neg (by omega)

/-! ### RegRead and RegWrite by byte name (R24, R25) -/

theorem State.regRead_byte_low (s : State) {i : RegField} (h : i.val ≤ 3) :
    s.regRead i .byte = lowByte (s.reg i) := by
  simp only [State.regRead, byteCell_eq_self h, byteHalf_eq_low h, halfOf]

theorem State.regRead_byte_high (s : State) {i k : RegField} (h : k.val + 4 = i.val) :
    s.regRead i .byte = highByte (s.reg k) := by
  simp only [State.regRead, byteCell_eq_of_add_four h, byteHalf_eq_high h, halfOf]

theorem State.regWrite_byte_low (s : State) {i : RegField} (v : Byte) (h : i.val ≤ 3) :
    s.regWrite i .byte v = s.setReg i (wordOfBytes v (highByte (s.reg i))) := by
  simp only [State.regWrite, byteCell_eq_self h, byteHalf_eq_low h, withHalf]

theorem State.regWrite_byte_high (s : State) {i k : RegField} (v : Byte) (h : k.val + 4 = i.val) :
    s.regWrite i .byte v = s.setReg k (wordOfBytes (lowByte (s.reg k)) v) := by
  simp only [State.regWrite, byteCell_eq_of_add_four h, byteHalf_eq_high h, withHalf]

theorem State.regWrite_word (s : State) (i : RegField) (v : Word) : s.regWrite i .word v = s.setReg i v := rfl

/-! ### Replacing the flags -/

@[simp] theorem State.setFlags_setFlags (s : State) (y m z n : Bool) :
    (s.setFlags y m).setFlags z n = s.setFlags z n := rfl

@[simp] theorem State.withSf_self (s : State) : s.withSf s.sf = s := rfl

@[simp] theorem State.withSf_zf (s : State) (b : Bool) : (s.withSf b).zf = s.zf := rfl

theorem State.addIp_withSf (s : State) (d : Word) (b : Bool) : (s.withSf b).addIp d = (s.addIp d).withSf b := rfl

theorem State.advance_withSf (s : State) (i : Instr) (b : Bool) :
    (s.withSf b).advance i = (s.advance i).withSf b := rfl

theorem State.halt_withSf (s : State) (b : Bool) : (s.withSf b).halt = s.halt.withSf b := rfl

theorem State.raise_withSf (s : State) (kind : Fault) (b : Bool) :
    (s.withSf b).raise kind = (s.raise kind).withSf b := rfl

/-! ### MOV's copy and the ALU operation under other flags (R160, R172) -/

theorem State.copy_sameFlags (s : State) (w : Width) (dst : Place) (src : Source) :
    SameFlags s (s.copy w dst src) := s.writePlace_sameFlags w dst _

theorem State.copy_setFlags (s : State) (z n : Bool) (w : Width) (dst : Place) (src : Source) :
    (s.setFlags z n).copy w dst src = (s.copy w dst src).setFlags z n := by
  simp only [State.copy, State.readSource_setFlags, State.writePlace_setFlags]

theorem State.copy_withSf (s : State) (b : Bool) (w : Width) (dst : Place) (src : Source) :
    (s.withSf b).copy w dst src = (s.copy w dst src).withSf b := by
  rw [State.withSf, State.copy_setFlags, State.withSf, (s.copy_sameFlags w dst src).1]

theorem State.aluResult_setFlags (s : State) (z n : Bool) (op : AluOp) (w : Width) (dst : Place) (src : Source) :
    (s.setFlags z n).aluResult op w dst src = s.aluResult op w dst src := by
  simp only [State.aluResult, State.readPlace_setFlags, State.readSource_setFlags]

/-- The ALU operation overwrites both flags and reads neither. -/
theorem State.arith_setFlags (s : State) (z n : Bool) (op : AluOp) (w : Width) (dst : Place) (src : Source) :
    (s.setFlags z n).arith op w dst src = s.arith op w dst src := by
  cases op <;>
    simp only [State.arith_add, State.arith_sub, State.arith_cmp, State.aluResult_setFlags, State.writePlace_setFlags,
      State.setFlags_setFlags]

/-! ### One meaning for each family, the same in every state (R145) -/

theorem isMov_or_isArith_or_jne (i : Instr) : i.isMov = true ∨ i.isArith = true ∨ ∃ d, i = .jne d := by
  cases i with
  | jne d => exact .inr (.inr ⟨d, rfl⟩)
  | movRegMem | movImmRegMem | movImmReg | movMemAcc | movAccMem => exact .inl rfl
  | addRegMem | addImmRegMem | addImmAcc | subRegMem | subImmRegMem | subImmAcc | cmpRegMem | cmpImmRegMem | cmpImmAcc =>
    exact .inr (.inl rfl)

theorem exec_of_isMov {i : Instr} (h : i.isMov = true) : ∃ w dst src, ∀ s, exec i s = .next (s.copy w dst src) := by
  cases i with
  | movRegMem | movImmRegMem | movImmReg | movMemAcc | movAccMem => exact ⟨_, _, _, fun _ => rfl⟩
  | _ => nomatch h

theorem exec_of_isArith {i : Instr} (h : i.isArith = true) :
    ∃ op w dst src, ∀ s, exec i s = .next (s.arith op w dst src) := by
  cases i with
  | jne | movRegMem | movImmRegMem | movImmReg | movMemAcc | movAccMem => nomatch h
  | _ => exact ⟨_, _, _, _, fun _ => rfl⟩

theorem exec_jne (d : Byte) (s : State) :
    exec (.jne d) s = .next (if s.zf = true then s else s.addIp (sext16 d)) := execJne_eq d s

/-! ### Old flags and new ones, family by family (R29) -/

theorem exec_setFlags_of_isArith {i : Instr} (h : i.isArith = true) (s : State) (z n : Bool) :
    exec i (s.setFlags z n) = exec i s := by
  obtain ⟨op, w, dst, src, he⟩ := exec_of_isArith h
  rw [he, he, State.arith_setFlags]

theorem exec_setFlags_of_isMov {i : Instr} (h : i.isMov = true) (s : State) (z n : Bool) :
    ∃ t, exec i s = .next t ∧ SameFlags s t ∧ exec i (s.setFlags z n) = .next (t.setFlags z n) := by
  obtain ⟨w, dst, src, he⟩ := exec_of_isMov h
  exact ⟨_, he s, s.copy_sameFlags w dst src, by rw [he, State.copy_setFlags]⟩

theorem exec_jne_withSf (d : Byte) (s : State) (b : Bool) :
    ∃ t, exec (.jne d) s = .next t ∧ SameFlags s t ∧ exec (.jne d) (s.withSf b) = .next (t.withSf b) := by
  refine ⟨_, exec_jne d s, ?_, ?_⟩
  · split <;> exact ⟨rfl, rfl⟩
  · rw [exec_jne, State.withSf_zf, State.addIp_withSf, apply_ite (State.withSf · b)]

/-! ### Runs that differ in `SF` (R29, R190) -/

/-- An instruction run with another `SF` ends in the same state but for `SF`: MOV and JNE carry the other value along, an
arithmetic form overwrites it. -/
theorem exec_withSf {i : Instr} {s t : State} (h : exec i s = .next t) (b : Bool) :
    ∃ b', exec i (s.withSf b) = .next (t.withSf b') := by
  rcases isMov_or_isArith_or_jne i with hi | hi | ⟨d, rfl⟩
  · obtain ⟨w, dst, src, he⟩ := exec_of_isMov hi
    rw [he] at h
    injection h with h
    exact ⟨b, by rw [he, State.copy_withSf, h]⟩
  · exact ⟨t.sf, by rw [State.withSf_self, State.withSf, exec_setFlags_of_isArith hi, h]⟩
  · obtain ⟨u, hu, -, hb⟩ := exec_jne_withSf d s b
    rw [hu] at h
    injection h with h
    exact ⟨b, h ▸ hb⟩

/-- The simulation, one step: no case of the engine's cycle looks at `SF`. -/
theorem step_withSf {s t : State} (h : step s = .next t) (b : Bool) :
    ∃ b', step (s.withSf b) = .next (t.withSf b') := by
  rcases step_cases h with ⟨hs, rfl⟩ | ⟨hs, hl, hip, rfl⟩ | ⟨hf, e, hd, rfl⟩ | ⟨hf, i, hd, he⟩
  · exact ⟨b, engineStep_stopped _ hs⟩
  · refine ⟨b, ?_⟩
    rw [step, engineStep_end (s := s.withSf b) _ hs hl hip, State.halt_withSf]
  · have hf' : (s.withSf b).Fetches := hf
    refine ⟨b, ?_⟩
    rw [step, engineStep_fetches _ hf', fetchAndRun_error (s := s.withSf b) _ hd, State.raise_withSf]
  · have hf' : (s.withSf b).Fetches := hf
    obtain ⟨b', hb'⟩ := exec_withSf he b
    refine ⟨b', ?_⟩
    rw [step, engineStep_fetches _ hf', fetchAndRun_exec (s := s.withSf b) _ hd (isUnsupported_default i),
      State.advance_withSf, hb']

/-! ### Stopped engines and start states (R33, R36) -/

theorem step_of_ended {s : State} (h : s.Ended) : step s = .next s := engineStep_stopped _ h

theorem State.reset_eq_launch_nil : State.reset = State.launch [] := rfl

theorem State.launch_inv {stream : List Byte} (h : stream.length ≤ Config.streamMax) : (State.launch stream).Inv where
  legalStream := h
  memoryCanonical := State.reset_memory_wf
  highCellsUntouched a _ := State.launch_memByte stream a
  flagsExclusive := by simp [State.FlagsExclusive]
  statusFits := trivial

/-! ### The statements -/

/-- Settles O35, by induction on the number of steps with `step_withSf` for each. -/
theorem signFlagNeverSteersARun : Obligations.SignFlagNeverSteersARun := by
  unfold Obligations.SignFlagNeverSteersARun
  intro k
  induction k with
  | zero =>
    intro s t b h
    exact ⟨b, reaches_zero.mpr (congrArg (·.withSf b) (reaches_zero.mp h))⟩
  | succ k ih =>
    intro s t b h
    obtain ⟨u, hu, ht⟩ := reaches_succ.mp h
    obtain ⟨c, hc⟩ := step_withSf hu b
    obtain ⟨b', hb'⟩ := ih u t c ht
    exact ⟨b', reaches_succ.mpr ⟨_, hc, hb'⟩⟩

/-- Settles O3: each write is one `setReg`, whose word is the value or the old word with one byte replaced. -/
theorem regWriteReplacesCellOrHalf : Obligations.RegWriteReplacesCellOrHalf := by
  unfold Obligations.RegWriteReplacesCellOrHalf
  intro s i
  refine ⟨fun v => ?_, fun v hi => ?_, fun v k hk => ?_, fun w v => ?_⟩
  · rw [State.regWrite_word]
    exact ⟨s.reg_setReg_self i v, fun c hc => s.reg_setReg_ne v hc⟩
  · rw [State.regWrite_byte_low s v hi]
    refine ⟨?_, fun c hc => s.reg_setReg_ne _ hc⟩
    rw [State.reg_setReg_self, toNat_wordOfBytes, toNat_highByte]
  · rw [State.regWrite_byte_high s v hk]
    refine ⟨?_, fun c hc => s.reg_setReg_ne _ hc⟩
    rw [State.reg_setReg_self, toNat_wordOfBytes, toNat_lowByte]
  · exact ⟨s.regWrite_mem i w v, ⟨s.regWrite_zf i w v, s.regWrite_sf i w v⟩,
      s.regWrite_ip i w v, s.regWrite_status i w v, s.regWrite_stream i w v⟩

/-- Settles O4: the cell of a byte name is one of the first four. -/
theorem byteWritesNeverReachSpBpSiDi : Obligations.ByteWritesNeverReachSpBpSiDi := by
  unfold Obligations.ByteWritesNeverReachSpBpSiDi
  intro s i c v hc
  have hne : c ≠ byteCell i := by
    rintro rfl
    exact absurd (byteCell_lt_four i) (Nat.not_lt.mpr hc)
  exact s.reg_regWrite_ne i .byte v (fun h => nomatch h) fun _ => hne

/-- Settles O14, family by family. -/
theorem flagsWrittenByArithmeticAloneAfresh : Obligations.FlagsWrittenByArithmeticAloneAfresh := by
  unfold Obligations.FlagsWrittenByArithmeticAloneAfresh
  intro s z n
  exact ⟨fun _ hi => exec_setFlags_of_isArith hi s z n, fun _ hi => exec_setFlags_of_isMov hi s z n,
    fun d => exec_jne_withSf d s n⟩

/-- Settles O28, by induction on the number of steps: each step of a stopped engine answers the state itself. -/
theorem stoppedEngineNeverChanges : Obligations.StoppedEngineNeverChanges := by
  unfold Obligations.StoppedEngineNeverChanges
  intro s k hs
  induction k with
  | zero => exact reaches_zero.mpr rfl
  | succ k ih => exact reaches_succ.mpr ⟨s, step_of_ended hs, ih⟩

/-- Settles O1: reset is the launch of the empty stream. -/
theorem resetLeavesZeroState : Obligations.ResetLeavesZeroState := by
  unfold Obligations.ResetLeavesZeroState
  rw [State.reset_eq_launch_nil]
  exact ⟨State.launch_reg [], rfl, rfl, rfl, State.launch_memByte [], rfl⟩

/-- Settles O2: a byte read is the low or the high byte of its cell, and a word is its two bytes. -/
theorem regReadReadsCellOrHalf : Obligations.RegReadReadsCellOrHalf := by
  unfold Obligations.RegReadReadsCellOrHalf
  intro s i
  refine ⟨rfl, fun hi => ?_, fun c hc => ?_, ?_⟩
  · rw [State.regRead_byte_low s hi]
    exact toNat_lowByte _
  · rw [State.regRead_byte_high s hc]
    exact toNat_highByte _
  · rw [State.regRead_byte_high s (i := 4) (k := 0) rfl, State.regRead_byte_low s (i := 0) (by decide)]
    calc (s.reg 0).toNat = (wordOfBytes (lowByte (s.reg 0)) (highByte (s.reg 0))).toNat := by rw [wordOfBytes_halves]
      _ = (highByte (s.reg 0)).toNat * 256 + (lowByte (s.reg 0)).toNat := toNat_wordOfBytes _ _

/-- Settles O37: reset is the launch of the empty stream, and every launch of a legal stream meets the invariant. -/
theorem runsStartInInvariant : Obligations.RunsStartInInvariant := by
  unfold Obligations.RunsStartInInvariant
  refine ⟨?_, fun _ h => State.launch_inv h⟩
  rw [State.reset_eq_launch_nil]
  exact State.launch_inv (Nat.zero_le _)

end Sys2Proof.Machine
end

section
/-! PROOFS. Data memory (20_memory.md): reads and writes byte by byte, what a step keeps of each part of the invariant of a
run, and the statements of that family. -/

namespace Sys2Proof.Machine

/-! ### MemRead and MemWrite, byte by byte (R56, R57) -/

theorem State.memRead_byte (s : State) (addr : Word) : s.memRead addr .byte = s.memByte addr.toNat := rfl

theorem State.memRead_word (s : State) (addr : Word) :
    s.memRead addr .word = wordOfBytes (s.memByte addr.toNat) (s.memByte (addr.toNat + 1)) := rfl

theorem State.memByte_memWrite_byte_ne (s : State) (addr : Word) (v : Byte) (h : s.mem.wf) {a : Nat}
    (ha : a ≠ addr.toNat) : (s.memWrite addr .byte v).memByte a = s.memByte a := by
  rw [State.memByte_memWrite_byte s addr v a h, if_neg ha]

theorem State.memByte_memWrite_word_low (s : State) (addr : Word) (v : Word) (h : s.mem.wf) :
    (s.memWrite addr .word v).memByte addr.toNat = lowByte v := by
  rw [State.memByte_memWrite_word s addr v _ h, if_neg (Nat.ne_of_lt (Nat.lt_succ_self _)), if_pos rfl]

theorem State.memByte_memWrite_word_high (s : State) (addr : Word) (v : Word) (h : s.mem.wf) :
    (s.memWrite addr .word v).memByte (addr.toNat + 1) = highByte v := by
  rw [State.memByte_memWrite_word s addr v _ h, if_pos rfl]

theorem State.memByte_memWrite_word_ne (s : State) (addr : Word) (v : Word) (h : s.mem.wf) {a : Nat}
    (hlo : a ≠ addr.toNat) (hhi : a ≠ addr.toNat + 1) : (s.memWrite addr .word v).memByte a = s.memByte a := by
  rw [State.memByte_memWrite_word s addr v a h, if_neg hhi, if_neg hlo]

/-- Byte writes at consecutive cells are the word write of the two bytes (R58). -/
theorem State.setMemByte_memWrite_byte (s : State) (addr : Word) (p q : Byte) :
    (s.memWrite addr .byte p).setMemByte (addr.toNat + 1) q = s.memWrite addr .word (wordOfBytes p q) := by
  simp only [State.memWrite, lowByte_wordOfBytes, highByte_wordOfBytes]

/-! ### What a step keeps (R54, R172, R33) -/

theorem step_stream {s t : State} (h : step s = .next t) : t.stream = s.stream := engineStep_stream h

/-- A step replaces the run status alone, or runs an instruction past which `ip` has been advanced. -/
theorem step_setsStatus_or_exec {s t : State} (h : step s = .next t) :
    (∃ st, t = { s with status := st }) ∨ ∃ i, exec i (s.advance i) = .next t := by
  rcases step_cases h with ⟨-, rfl⟩ | ⟨-, -, -, rfl⟩ | ⟨-, e, -, rfl⟩ | ⟨-, i, -, he⟩
  · exact .inl ⟨t.status, rfl⟩
  · exact .inl ⟨.halted, rfl⟩
  · exact .inl ⟨.faulted (faultOfDecode e) s.ip, rfl⟩
  · exact .inr ⟨i, he⟩

theorem step_wf {s t : State} (h : step s = .next t) (hm : s.mem.wf) : t.mem.wf := by
  rcases step_setsStatus_or_exec h with ⟨st, rfl⟩ | ⟨i, he⟩
  · exact hm
  · exact exec_wf he hm

theorem step_high {s t : State} (h : step s = .next t) (hm : s.mem.wf) {a : Nat} (ha : 0x10000 < a) :
    t.memByte a = s.memByte a := by
  rcases step_setsStatus_or_exec h with ⟨st, rfl⟩ | ⟨i, he⟩
  · rfl
  · exact exec_high (s := s.advance i) he hm ha

/-- The flags of a meaning are the old ones or those of one result, which are never both set. -/
theorem exec_flagsExclusive {i : Instr} {s t : State} (h : exec i s = .next t) (hx : s.FlagsExclusive) :
    t.FlagsExclusive := by
  rcases exec_shape h with ⟨w, p, v, rfl⟩ | ⟨u, w, r, -, rfl⟩ | rfl | ⟨d, rfl⟩
  · rwa [State.FlagsExclusive, s.writePlace_zf, s.writePlace_sf]
  · exact flags_exclusive r
  · exact hx
  · exact hx

theorem step_flagsExclusive {s t : State} (h : step s = .next t) (hx : s.FlagsExclusive) : t.FlagsExclusive := by
  rcases step_setsStatus_or_exec h with ⟨st, rfl⟩ | ⟨i, he⟩
  · exact hx
  · exact exec_flagsExclusive (s := s.advance i) he hx

theorem State.statusFits_of_running {s : State} (h : s.status = .running) : s.StatusFits := by
  simp only [State.StatusFits, h]

/-- A halt happens past the end of the stream, a fault inside it, and an executed instruction leaves the engine running. -/
theorem step_statusFits {s t : State} (h : step s = .next t) (hs : s.StatusFits) : t.StatusFits := by
  rcases step_cases h with ⟨-, rfl⟩ | ⟨-, -, hend, rfl⟩ | ⟨⟨-, -, hip⟩, e, -, rfl⟩ | ⟨⟨hr, -, -⟩, i, -, he⟩
  · exact hs
  · exact hend
  · exact ⟨rfl, hip⟩
  · exact State.statusFits_of_running ((exec_status he).trans hr)

/-! ### The statements -/

/-- Settles O36, clause by clause: each clause of the invariant has its lemma about a step. -/
theorem everyStepKeepsInvariant : Obligations.EveryStepKeepsInvariant := by
  unfold Obligations.EveryStepKeepsInvariant
  rintro s t ⟨hlegal, hm, hhigh, hx, hs⟩ h
  exact
    { legalStream := by rwa [State.LegalStream, step_stream h]
      memoryCanonical := step_wf h hm
      highCellsUntouched := fun a ha => (step_high h hm ha).trans (hhigh a ha)
      flagsExclusive := step_flagsExclusive h hx
      statusFits := step_statusFits h hs }

/-- Settles O6: the bytes of a write as in `State.memByte_memWrite_byte` and `State.memByte_memWrite_word`, in numbers. -/
theorem memWriteStoresLittleEndian : Obligations.MemWriteStoresLittleEndian := by
  unfold Obligations.MemWriteStoresLittleEndian
  intro s addr h
  refine ⟨fun v => ⟨?_, fun a ha => s.memByte_memWrite_byte_ne addr v h ha⟩,
    fun v => ⟨?_, ?_, fun a hlo hhi => s.memByte_memWrite_word_ne addr v h hlo hhi⟩,
    fun w v => s.memRead_memWrite_self addr w v h⟩
  · exact s.memRead_memWrite_self addr .byte v h
  · rw [s.memByte_memWrite_word_low addr v h, toNat_lowByte]
  · rw [s.memByte_memWrite_word_high addr v h, toNat_highByte]

/-- Settles O7: a byte read is the cell that the word write left there, and two byte writes are one word write. -/
theorem mixedWidthAccessesAgree : Obligations.MixedWidthAccessesAgree := by
  unfold Obligations.MixedWidthAccessesAgree
  intro s addr h
  refine ⟨fun v => ⟨s.memByte_memWrite_word_low addr v h, s.memByte_memWrite_word_high addr v h, fun hlt => ?_⟩,
    fun p q => ?_⟩
  · have hnext : (addr + 1).toNat = addr.toNat + 1 := BitVec.toNat_add_of_lt (Nat.add_lt_add_right hlt 1)
    rw [State.memRead_byte, hnext, s.memByte_memWrite_word_high addr v h]
  · rw [State.setMemByte_memWrite_byte, s.memRead_memWrite_self addr .word _ h]

/-- Settles O33: every step keeps the stream, so a run does. -/
theorem streamIsReadOnly : Obligations.StreamIsReadOnly := by
  unfold Obligations.StreamIsReadOnly
  intro k s t h
  exact Reaches.keeps (P := (·.stream = s.stream)) (fun _ _ hu hut => (step_stream hut).trans hu) rfl h

/-- Settles O34: canonical memory and the one high cell are kept together by every step, so by a run. -/
theorem highCellsAreNeverTouched : Obligations.HighCellsAreNeverTouched := by
  unfold Obligations.HighCellsAreNeverTouched
  intro k s t hm h a ha
  have hkept : t.mem.wf ∧ t.memByte a = s.memByte a :=
    Reaches.keeps (P := fun u => u.mem.wf ∧ u.memByte a = s.memByte a)
      (fun _ _ ⟨hw, hu⟩ hut => ⟨step_wf hut hw, (step_high hut hw ha).trans hu⟩) ⟨hm, rfl⟩ h
  exact hkept.2

/-- Settles O5: a word read is the word of its two bytes. -/
theorem memReadIsLittleEndian : Obligations.MemReadIsLittleEndian := by
  unfold Obligations.MemReadIsLittleEndian
  intro s addr
  exact ⟨s.memRead_byte addr, by rw [State.memRead_word, toNat_wordOfBytes]⟩

/-- Settles O32: the length is looked at before any fetch. -/
theorem overlongStreamIsRefused : Obligations.OverlongStreamIsRefused := by
  unfold Obligations.OverlongStreamIsRefused
  intro s hr hl
  exact engineStep_overlong Config.unsupportedForms hr hl

end Sys2Proof.Machine
end

section
/-! PROOFS. The encoding (30_encoding.md): decode and encode agree in both directions, where UnknownOpcode comes from, the
displacement length by fields, and meanings that depend on an `rm` operand's place alone; then the statements of that
family. -/

namespace Sys2Proof

open Machine

/-! ### Decode of encode (R80 to R86, R121) -/

/-- The arithmetic group as a whole, its form chosen by the extension. -/
theorem decode_encodeArithIRM {ext : RegField} {form : Bool → Width → RmOperand → Word → Instr}
    (hform : arithForm ext = some form) (s : Bool) (w : Width) (rm : RmOperand) (data : Word) (rest : List Byte)
    (h : (rm.wellFormed && arithDataFits s w data) = true) :
    decode (encodeArithIRM ext.bits s w rm data ++ rest) = .ok (form s w rm data, rest) := by
  obtain ⟨hrm, hdata⟩ := Bool.and_eq_true_iff.mp h
  rw [← decodeArithIRM_encode hform s w rm data rest hrm hdata, ← List.append_assoc]
  exact decode_cons (firstByteEntry_arith s w) _

theorem decode_encode (i : Instr) (rest : List Byte) (h : i.wellFormed = true) :
    decode (encode i ++ rest) = .ok (i, rest) := by
  cases i with
  | movRegMem d w reg rm =>
    obtain ⟨hb, -, -, -⟩ := firstByteEntry_regMem d w
    exact (decode_cons hb _).trans (decodeRM_encode _ _ d w reg rm rest h)
  | addRegMem d w reg rm =>
    obtain ⟨-, hb, -, -⟩ := firstByteEntry_regMem d w
    exact (decode_cons hb _).trans (decodeRM_encode _ _ d w reg rm rest h)
  | subRegMem d w reg rm =>
    obtain ⟨-, -, hb, -⟩ := firstByteEntry_regMem d w
    exact (decode_cons hb _).trans (decodeRM_encode _ _ d w reg rm rest h)
  | cmpRegMem d w reg rm =>
    obtain ⟨-, -, -, hb⟩ := firstByteEntry_regMem d w
    exact (decode_cons hb _).trans (decodeRM_encode _ _ d w reg rm rest h)
  | movImmRegMem w rm data =>
    obtain ⟨hb, -⟩ := firstByteEntry_immediate w
    obtain ⟨hrm, hdata⟩ := Bool.and_eq_true_iff.mp h
    rw [← decodeMovIRM_encode w rm data rest hrm hdata, ← List.append_assoc]
    exact decode_cons hb _
  | addImmRegMem s w rm data => exact decode_encodeArithIRM (ext := 0) rfl s w rm data rest h
  | subImmRegMem s w rm data => exact decode_encodeArithIRM (ext := 5) rfl s w rm data rest h
  | cmpImmRegMem s w rm data => exact decode_encodeArithIRM (ext := 7) rfl s w rm data rest h
  | movImmReg w reg data =>
    exact (decode_cons (firstByteEntry_movImmReg w reg) _).trans (decodeIR_encode w reg data rest h)
  | movMemAcc w addr =>
    obtain ⟨-, hb, -⟩ := firstByteEntry_immediate w
    exact (decode_cons hb _).trans (decodeMA_encode _ _ w addr rest)
  | movAccMem w addr =>
    obtain ⟨-, -, hb, -⟩ := firstByteEntry_immediate w
    exact (decode_cons hb _).trans (decodeMA_encode _ _ w addr rest)
  | addImmAcc w data =>
    obtain ⟨-, -, -, hb, -⟩ := firstByteEntry_immediate w
    exact (decode_cons hb _).trans (decodeIA_encode _ _ w data rest h)
  | subImmAcc w data =>
    obtain ⟨-, -, -, -, hb, -⟩ := firstByteEntry_immediate w
    exact (decode_cons hb _).trans (decodeIA_encode _ _ w data rest h)
  | cmpImmAcc w data =>
    obtain ⟨-, -, -, -, -, hb⟩ := firstByteEntry_immediate w
    exact (decode_cons hb _).trans (decodeIA_encode _ _ w data rest h)
  | jne disp8 => exact decode_cons (b0 := 0b01110101) (e := .jne) (by decide) (disp8 :: rest)

/-! ### Encode of decode (R121, R122) -/

/-- The instruction is well formed and `bs` begins with its encoding, `rest` after it. -/
def ReadsAs (bs : List Byte) (i : Instr) (rest : List Byte) : Prop := i.wellFormed = true ∧ bs = encode i ++ rest

theorem readsAs_of_decodeRM {form : Direction → Width → RegField → RmOperand → Instr} {op : BitVec 6} {b0 : Byte}
    {bs rest : List Byte} {i : Instr}
    (hb : b0 = op ++ (Direction.ofBit (b0.getLsbD 1)).bit ++ (Width.ofBit (b0.getLsbD 0)).bit)
    (hwf : ∀ d w reg rm, (form d w reg rm).wellFormed = rm.wellFormed)
    (henc : ∀ d w reg rm, encode (form d w reg rm) = encodeRM op d w reg rm)
    (h : decodeRM form b0 bs = .ok (i, rest)) : ReadsAs (b0 :: bs) i rest := by
  obtain ⟨reg, rm, rfl, hrm, rfl⟩ := decodeRM_eq_ok h
  refine ⟨(hwf ..).trans hrm, ?_⟩
  rw [henc]
  exact congrArg (· :: _) hb

theorem readsAs_of_decodeIA {form : Width → Word → Instr} {op : BitVec 7} {b0 : Byte} {bs rest : List Byte} {i : Instr}
    (hb : b0 = op ++ (Width.ofBit (b0.getLsbD 0)).bit)
    (hwf : ∀ w data, (form w data).wellFormed = dataFits w data)
    (henc : ∀ w data, encode (form w data) = encodeIA op w data)
    (h : decodeIA form b0 bs = .ok (i, rest)) : ReadsAs (b0 :: bs) i rest := by
  obtain ⟨data, rfl, hdata, rfl⟩ := decodeIA_eq_ok h
  refine ⟨(hwf ..).trans hdata, ?_⟩
  rw [henc]
  exact congrArg (· :: _) hb

theorem readsAs_of_decodeMA {form : Width → Word → Instr} {op : BitVec 7} {b0 : Byte} {bs rest : List Byte} {i : Instr}
    (hb : b0 = op ++ (Width.ofBit (b0.getLsbD 0)).bit)
    (hwf : ∀ w addr, (form w addr).wellFormed = true)
    (henc : ∀ w addr, encode (form w addr) = (op ++ w.bit) :: wordBytes addr)
    (h : decodeMA form b0 bs = .ok (i, rest)) : ReadsAs (b0 :: bs) i rest := by
  obtain ⟨addr, rfl, rfl⟩ := decodeMA_eq_ok h
  refine ⟨hwf .., ?_⟩
  rw [henc]
  exact congrArg (· :: _) hb

theorem readsAs_of_decodeIR {b0 : Byte} {bs rest : List Byte} {i : Instr}
    (hb : b0 = 0b1011#4 ++ (Width.ofBit (b0.getLsbD 3)).bit ++ RegField.bits (rmField b0))
    (h : decodeIR b0 bs = .ok (i, rest)) : ReadsAs (b0 :: bs) i rest := by
  obtain ⟨data, bs1, hdata, h⟩ := andThen_eq_ok.mp h
  cases h
  obtain ⟨hfits, rfl⟩ := takeData_eq_ok hdata
  exact ⟨hfits, congrArg (· :: _) hb⟩

theorem readsAs_of_decodeMovIRM {b0 : Byte} {bs rest : List Byte} {i : Instr}
    (hb : b0 = 0b1100011#7 ++ (Width.ofBit (b0.getLsbD 0)).bit)
    (h : decodeMovIRM b0 bs = .ok (i, rest)) : ReadsAs (b0 :: bs) i rest := by
  obtain ⟨b1, bs1, hb1, h⟩ := andThen_eq_ok.mp h
  by_cases hext : regField b1 = 0
  · rw [if_pos hext] at h
    obtain ⟨rm, bs2, hrm, h⟩ := andThen_eq_ok.mp h
    obtain ⟨data, bs3, hdata, h⟩ := andThen_eq_ok.mp h
    cases h
    obtain ⟨hwf, rfl, hmod, hbits⟩ := takeRmOperand_eq_ok hrm
    obtain ⟨hfits, rfl⟩ := takeData_eq_ok hdata
    have hmode := modeByte_of_operand hmod hbits
    rw [hext] at hmode
    refine ⟨Bool.and_eq_true_iff.mpr ⟨hwf, hfits⟩, ?_⟩
    rw [takeByte_eq_ok.mp hb1, ← List.append_assoc]
    exact congrArg₂ (· :: · :: _) hb hmode
  · rw [if_neg hext] at h
    cases h

theorem readsAs_of_decodeArithIRM {b0 : Byte} {bs rest : List Byte} {i : Instr}
    (hb : b0 = 0b100000#6 ++ BitVec.ofBool (b0.getLsbD 1) ++ (Width.ofBit (b0.getLsbD 0)).bit)
    (h : decodeArithIRM b0 bs = .ok (i, rest)) : ReadsAs (b0 :: bs) i rest := by
  obtain ⟨ext, form, rm, data, hform, rfl, hwf, hfits, rfl⟩ := decodeArithIRM_eq_ok h
  have hboth := Bool.and_eq_true_iff.mpr ⟨hwf, hfits⟩
  rcases arithForm_eq_some hform with ⟨rfl, rfl⟩ | ⟨rfl, rfl⟩ | ⟨rfl, rfl⟩ <;>
    exact ⟨hboth, congrArg (· :: _) hb⟩

theorem readsAs_of_decodeEntry {e : TableEntry} {b0 : Byte} {bs rest : List Byte} {i : Instr}
    (he : firstByteEntry b0 = some e) (h : decodeEntry e b0 bs = .ok (i, rest)) : ReadsAs (b0 :: bs) i rest := by
  have hb := firstByteEntry_eq_some b0 e he
  cases e with
  | movRegMem | addRegMem | subRegMem | cmpRegMem =>
    exact readsAs_of_decodeRM hb (fun _ _ _ _ => rfl) (fun _ _ _ _ => rfl) h
  | addImmAcc | subImmAcc | cmpImmAcc => exact readsAs_of_decodeIA hb (fun _ _ => rfl) (fun _ _ => rfl) h
  | movMemAcc | movAccMem => exact readsAs_of_decodeMA hb (fun _ _ => rfl) (fun _ _ => rfl) h
  | movImmReg => exact readsAs_of_decodeIR hb h
  | movImmRegMem => exact readsAs_of_decodeMovIRM hb h
  | arithImmRegMem => exact readsAs_of_decodeArithIRM hb h
  | jne =>
    obtain ⟨disp8, bs1, hdisp, h⟩ := andThen_eq_ok.mp h
    cases h
    exact ⟨rfl, congrArg₂ List.cons hb (takeByte_eq_ok.mp hdisp)⟩

/-- What the decoder accepts is the encoding of the instruction it answers. -/
theorem readsAs_of_decode {bs rest : List Byte} {i : Instr} (h : decode bs = .ok (i, rest)) : ReadsAs bs i rest := by
  cases bs with
  | nil => cases h
  | cons b0 bs =>
    cases he : firstByteEntry b0 with
    | none =>
      simp only [decode, he] at h
      cases h
    | some e => exact readsAs_of_decodeEntry he (decode_cons he bs ▸ h)

/-! ### Displacement lengths (R75) -/

/-- The displacement length from the two fields of the mode byte. -/
theorem RmOperand.dispLen_eq {rm : RmOperand} (h : rm.wellFormed = true) :
    rm.dispLen = if rm.modBits.toFin = 0 then (if rm.rmBits.toFin = 6 then 2 else 0)
      else if rm.modBits.toFin = 1 then 1 else if rm.modBits.toFin = 2 then 2 else 0 := by
  cases rm with
  | mem b =>
    cases b with
    | bp => cases h
    | bxSi | bxDi | bpSi | bpDi | si | di | bx => rfl
  | reg | direct | memDisp8 | memDisp16 => rfl

theorem wordBytes_wordOfBytes (lo hi : Byte) : wordBytes (wordOfBytes lo hi) = [lo, hi] := by
  simp [wordBytes]

/-- The direct-address slot of format RM in bytes. -/
theorem encodeRM_direct (op : BitVec 6) (d : Direction) (w : Width) (reg : RegField) (lo hi : Byte) :
    encodeRM op d w reg (.direct (wordOfBytes lo hi)) =
      [op ++ d.bit ++ w.bit, 0b00#2 ++ reg.bits ++ 0b110#3, lo, hi] := by
  rw [encodeRM, RmOperand.dispBytes, wordBytes_wordOfBytes]
  rfl

/-- A form of format RM decodes its direct-address slot to that address, in four bytes. -/
theorem decode_direct {op : BitVec 6} {form : Direction → Width → RegField → RmOperand → Instr}
    (hwf : ∀ d w reg rm, (form d w reg rm).wellFormed = rm.wellFormed)
    (henc : ∀ d w reg rm, encode (form d w reg rm) = encodeRM op d w reg rm)
    (d : Direction) (w : Width) (reg : RegField) (lo hi : Byte) (rest : List Byte) :
    decode ((op ++ d.bit ++ w.bit) :: (0b00#2 ++ reg.bits ++ 0b110#3) :: lo :: hi :: rest) =
      .ok (form d w reg (.direct (wordOfBytes lo hi)), rest) := by
  have h := decode_encode (form d w reg (.direct (wordOfBytes lo hi))) rest (hwf ..)
  rwa [henc, encodeRM_direct] at h

/-! ### Where UnknownOpcode comes from (R94, R112, R114) -/

/-- The one error a part of the decoder can give is Truncated. -/
def OnlyTruncates {α : Type} (r : Parse α) : Prop := ∀ e, r = .error e → e = .truncated

theorem onlyTruncates_ok {α : Type} (p : α × List Byte) : OnlyTruncates (.ok p) := nofun

theorem OnlyTruncates.andThen {α β : Type} {r : Parse α} {f : α → List Byte → Parse β} (hr : OnlyTruncates r)
    (hf : ∀ a bs, OnlyTruncates (f a bs)) : OnlyTruncates (andThen r f) := by
  intro e h
  rcases andThen_eq_error.mp h with h | ⟨a, bs, -, h⟩
  · exact hr e h
  · exact hf a bs e h

theorem OnlyTruncates.ne_unknownOpcode {α : Type} {r : Parse α} (h : OnlyTruncates r) : r ≠ .error .unknownOpcode :=
  fun he => nomatch h _ he

theorem decodeRM_onlyTruncates (form : Direction → Width → RegField → RmOperand → Instr) (b0 : Byte) (bs : List Byte) :
    OnlyTruncates (decodeRM form b0 bs) :=
  OnlyTruncates.andThen (fun _ => takeByte_error) fun _ _ =>
    OnlyTruncates.andThen (fun _ => takeRmOperand_error) fun _ _ => onlyTruncates_ok _

theorem decodeIA_onlyTruncates (form : Width → Word → Instr) (b0 : Byte) (bs : List Byte) :
    OnlyTruncates (decodeIA form b0 bs) :=
  OnlyTruncates.andThen (fun _ => takeData_error) fun _ _ => onlyTruncates_ok _

theorem decodeMA_onlyTruncates (form : Width → Word → Instr) (b0 : Byte) (bs : List Byte) :
    OnlyTruncates (decodeMA form b0 bs) :=
  OnlyTruncates.andThen (fun _ => takeWord_error) fun _ _ => onlyTruncates_ok _

theorem decodeIR_onlyTruncates (b0 : Byte) (bs : List Byte) : OnlyTruncates (decodeIR b0 bs) :=
  OnlyTruncates.andThen (fun _ => takeData_error) fun _ _ => onlyTruncates_ok _

theorem decodeJ_onlyTruncates (bs : List Byte) : OnlyTruncates (decodeJ bs) :=
  OnlyTruncates.andThen (fun _ => takeByte_error) fun _ _ => onlyTruncates_ok _

/-- MOV of format IRM rejects the extensions other than 0 and gives no other UnknownOpcode. -/
theorem decodeMovIRM_unknownOpcode {b0 : Byte} {bs : List Byte} :
    decodeMovIRM b0 bs = .error .unknownOpcode ↔ ∃ b1 rest, bs = b1 :: rest ∧ regField b1 ≠ 0 := by
  cases bs with
  | nil => simp [decodeMovIRM, takeByte]
  | cons b1 rest =>
    by_cases hext : regField b1 = 0
    · have hparts : OnlyTruncates (decodeMovIRM b0 (b1 :: rest)) := by
        simp only [decodeMovIRM, takeByte_cons, andThen_ok, if_pos hext]
        exact OnlyTruncates.andThen (fun _ => takeRmOperand_error) fun _ _ =>
          OnlyTruncates.andThen (fun _ => takeData_error) fun _ _ => onlyTruncates_ok _
      simp [hparts.ne_unknownOpcode, hext]
    · simp [decodeMovIRM, hext]

/-- The arithmetic group rejects the extensions that choose no form and gives no other UnknownOpcode. -/
theorem decodeArithIRM_unknownOpcode {b0 : Byte} {bs : List Byte} :
    decodeArithIRM b0 bs = .error .unknownOpcode ↔ ∃ b1 rest, bs = b1 :: rest ∧ arithForm (regField b1) = none := by
  cases bs with
  | nil => simp [decodeArithIRM, takeByte]
  | cons b1 rest =>
    cases hform : arithForm (regField b1) with
    | none => simp [decodeArithIRM, hform]
    | some form =>
      have hparts : OnlyTruncates (decodeArithIRM b0 (b1 :: rest)) := by
        simp only [decodeArithIRM, takeByte_cons, andThen_ok, hform]
        exact OnlyTruncates.andThen (fun _ => takeRmOperand_error) fun _ _ =>
          OnlyTruncates.andThen (fun _ => takeArithData_error) fun _ _ => onlyTruncates_ok _
      simp [hparts.ne_unknownOpcode, hform]

theorem decodeEntry_unknownOpcode {e : TableEntry} {b0 : Byte} {bs : List Byte} :
    decodeEntry e b0 bs = .error .unknownOpcode ↔
      (e = .arithImmRegMem ∧ ∃ b1 rest, bs = b1 :: rest ∧ arithForm (regField b1) = none) ∨
      (e = .movImmRegMem ∧ ∃ b1 rest, bs = b1 :: rest ∧ regField b1 ≠ 0) := by
  cases e with
  | arithImmRegMem => simp [decodeEntry, decodeArithIRM_unknownOpcode]
  | movImmRegMem => simp [decodeEntry, decodeMovIRM_unknownOpcode]
  | movRegMem | addRegMem | subRegMem | cmpRegMem =>
    simp [decodeEntry, (decodeRM_onlyTruncates _ b0 bs).ne_unknownOpcode]
  | addImmAcc | subImmAcc | cmpImmAcc => simp [decodeEntry, (decodeIA_onlyTruncates _ b0 bs).ne_unknownOpcode]
  | movMemAcc | movAccMem => simp [decodeEntry, (decodeMA_onlyTruncates _ b0 bs).ne_unknownOpcode]
  | movImmReg => simp [decodeEntry, (decodeIR_onlyTruncates b0 bs).ne_unknownOpcode]
  | jne => simp [decodeEntry, (decodeJ_onlyTruncates bs).ne_unknownOpcode]

theorem decode_unknownOpcode {b0 : Byte} {bs : List Byte} :
    decode (b0 :: bs) = .error .unknownOpcode ↔
      firstByteEntry b0 = none ∨
      (firstByteEntry b0 = some .arithImmRegMem ∧ ∃ b1 rest, bs = b1 :: rest ∧ arithForm (regField b1) = none) ∨
      (firstByteEntry b0 = some .movImmRegMem ∧ ∃ b1 rest, bs = b1 :: rest ∧ regField b1 ≠ 0) := by
  cases he : firstByteEntry b0 with
  | none => simp [decode, he]
  | some e => simp [decode_cons he, decodeEntry_unknownOpcode]

/-! ### The first byte and the extension as numbers (R88, R94) -/

theorem firstByteEntry_eq_none_iff : ∀ b0 : Byte, firstByteEntry b0 = none ↔
    b0.toNat ∉ [0x00, 0x01, 0x02, 0x03, 0x04, 0x05, 0x28, 0x29, 0x2A, 0x2B, 0x2C, 0x2D, 0x38, 0x39, 0x3A, 0x3B, 0x3C,
      0x3D, 0x75, 0x80, 0x81, 0x82, 0x83, 0x88, 0x89, 0x8A, 0x8B, 0xA0, 0xA1, 0xA2, 0xA3, 0xC6, 0xC7] ∧
    ¬ (0xB0 ≤ b0.toNat ∧ b0.toNat ≤ 0xBF) := by decide

theorem firstByteEntry_eq_arithImmRegMem_iff : ∀ b0 : Byte, firstByteEntry b0 = some .arithImmRegMem ↔
    0x80 ≤ b0.toNat ∧ b0.toNat ≤ 0x83 := by decide

theorem firstByteEntry_eq_movImmRegMem_iff : ∀ b0 : Byte, firstByteEntry b0 = some .movImmRegMem ↔
    0xC6 ≤ b0.toNat ∧ b0.toNat ≤ 0xC7 := by decide

theorem regField_val (b : Byte) : (regField b).val = b.toNat / 8 % 8 := by
  simp [regField, Nat.shiftRight_eq_div_pow]

theorem regField_ne_zero_iff (b : Byte) : regField b ≠ 0 ↔ b.toNat / 8 % 8 ≠ 0 := by
  rw [← regField_val]
  exact not_congr Fin.ext_iff

theorem arithForm_eq_none_iff : ∀ ext : RegField, arithForm ext = none ↔ ext.val ∈ [1, 2, 3, 4, 6] := by decide

/-! ### Meanings depend on the place an `rm` operand names (R145) -/

theorem regMemDest_congr {rm rm' : RmOperand} (h : rm.place = rm'.place) (d : Direction) (reg : RegField) :
    regMemDest d reg rm = regMemDest d reg rm' := by
  cases d with
  | regIsDest => rfl
  | rmIsDest => exact h

theorem regMemSource_congr {rm rm' : RmOperand} (h : rm.place = rm'.place) (d : Direction) (reg : RegField) :
    regMemSource d reg rm = regMemSource d reg rm' := by
  cases d with
  | regIsDest => exact congrArg Source.place h
  | rmIsDest => rfl

/-- The forms with an `rm` operand, as functions of it. -/
def rmForms (d : Direction) (w : Width) (reg : RegField) (sBit : Bool) (data : Word) : List (RmOperand → Instr) :=
  [.movRegMem d w reg, fun rm => .movImmRegMem w rm data, .addRegMem d w reg, fun rm => .addImmRegMem sBit w rm data,
    .subRegMem d w reg, fun rm => .subImmRegMem sBit w rm data, .cmpRegMem d w reg,
    fun rm => .cmpImmRegMem sBit w rm data]

/-- Operands that name one place give one meaning, in each of those forms. -/
theorem exec_congr_place {d : Direction} {w : Width} {reg : RegField} {sBit : Bool} {data : Word}
    {form : RmOperand → Instr} (hform : form ∈ rmForms d w reg sBit data) {rm rm' : RmOperand}
    (h : rm.place = rm'.place) (s : State) : exec (form rm) s = exec (form rm') s := by
  have hdst := regMemDest_congr h d reg
  have hsrc := regMemSource_congr h d reg
  simp only [rmForms, List.mem_cons, List.not_mem_nil, or_false] at hform
  rcases hform with rfl | rfl | rfl | rfl | rfl | rfl | rfl | rfl
  · simp only [exec, execMovRegMem, hdst, hsrc]
  · simp only [exec, execMovImmRegMem, h]
  · simp only [exec, execAddRegMem, hdst, hsrc]
  · simp only [exec, execAddImmRegMem, h]
  · simp only [exec, execSubRegMem, hdst, hsrc]
  · simp only [exec, execSubImmRegMem, h]
  · simp only [exec, execCmpRegMem, hdst, hsrc]
  · simp only [exec, execCmpImmRegMem, h]

/-- The byte displacement 0 adds nothing. -/
theorem RmOperand.place_memDisp8_zero (b : BaseIndex) : (RmOperand.memDisp8 b 0).place = (RmOperand.mem b).place := rfl

/-- The longer form of a byte displacement is its sign extension (R91). -/
theorem RmOperand.place_memDisp16_signExtend (b : BaseIndex) (disp : Byte) :
    (RmOperand.memDisp16 b (disp.signExtend 16)).place = (RmOperand.memDisp8 b disp).place := rfl

/-! ### The statements -/

/-- Settles O39, by the constructors of the instruction. -/
theorem decodeOfEncode : Obligations.DecodeOfEncode := by
  unfold Obligations.DecodeOfEncode
  exact decode_encode

/-- Settles O43: the bytes consumed are the encoding, whose length is the size. -/
theorem decodedSizeIsTwoToSixBytes : Obligations.DecodedSizeIsTwoToSixBytes := by
  unfold Obligations.DecodedSizeIsTwoToSixBytes
  intro bs rest i h
  obtain ⟨-, rfl⟩ := readsAs_of_decode h
  exact ⟨by rw [List.length_append, encode_length], size_range i⟩

/-- Settles O44: the fields of a decoded operand are those it was taken by, and the direct address is an encoding. -/
theorem displacementLengths : Obligations.DisplacementLengths := by
  unfold Obligations.DisplacementLengths
  refine ⟨fun m r bs rest rm h => ?_, fun d w reg lo hi rest => ⟨rfl, ?_⟩⟩
  · obtain ⟨hwf, rfl, hmod, hrm⟩ := takeRmOperand_eq_ok h
    have hlen := RmOperand.dispLen_eq hwf
    rw [hmod, hrm, RegField.toFin_bits] at hlen
    rw [List.length_append, RmOperand.dispBytes_length, Nat.add_comm, hlen]
  · intro p hp
    simp only [List.mem_cons, List.not_mem_nil, or_false] at hp
    rcases hp with rfl | rfl | rfl | rfl <;>
      exact decode_direct (fun _ _ _ _ => rfl) (fun _ _ _ _ => rfl) d w reg lo hi rest

/-- Settles O46: the three sources of UnknownOpcode, with the first byte and the extension as numbers. -/
theorem unknownOpcodeExactlyForIllegalEncodings : Obligations.UnknownOpcodeExactlyForIllegalEncodings := by
  unfold Obligations.UnknownOpcodeExactlyForIllegalEncodings
  intro b0 bs
  simp only [decode_unknownOpcode, firstByteEntry_eq_none_iff, firstByteEntry_eq_arithImmRegMem_iff,
    firstByteEntry_eq_movImmRegMem_iff, arithForm_eq_none_iff, regField_val, regField_ne_zero_iff, and_assoc]

/-- Settles O45, by evaluation over the 256 first bytes. -/
theorem tableRowsAreDisjoint : Obligations.TableRowsAreDisjoint := by
  unfold Obligations.TableRowsAreDisjoint
  exact ⟨by decide, by decide⟩

/-- Settles O48: the two sides of each pair copy or compute between the same places at the same width. -/
theorem redundantEncodingsExecuteIdentically : Obligations.RedundantEncodingsExecuteIdentically := by
  unfold Obligations.RedundantEncodingsExecuteIdentically
  intro s
  refine ⟨fun w a b => ⟨rfl, rfl, rfl, rfl⟩, fun w r data => rfl, fun sBit w data => ⟨rfl, rfl, rfl⟩,
    fun w rm data => ⟨rfl, rfl, rfl⟩, fun d w reg sBit data b disp form hform => ⟨?_, ?_⟩, fun w addr => ⟨rfl, rfl⟩⟩
  · exact exec_congr_place hform (RmOperand.place_memDisp16_signExtend b disp).symm s
  · exact exec_congr_place hform (RmOperand.place_memDisp8_zero b).symm s

end Sys2Proof
end

section
/-! PROOFS. The decode procedure (40_decode_procedure.md): decoding at an offset, the stream walk, how many bytes each part of
the decoder reads at most, and where Truncated comes from; then the statements of that family. -/

namespace Sys2Proof

/-! ### Decoding at an offset (R110, R126) -/

/-- The six bytes of the window hold the whole instruction. -/
theorem window_encode (before after : List Byte) (i : Instr) :
    window (before ++ encode i ++ after) before.length = encode i ++ after.take (6 - i.size) := by
  have hsize : (encode i).length ≤ 6 := (encode_length i).trans_le (size_range i).2
  rw [window, List.append_assoc, List.drop_left, List.take_append, List.take_of_length_le hsize, encode_length]

theorem decodeOne_encode (before after : List Byte) {i : Instr} (h : i.wellFormed = true) :
    decodeOne (before ++ encode i ++ after) before.length = .ok i := by
  rw [decodeOne, window_encode, decode_encode i _ h]
  rfl

/-! ### The stream walk (R125) -/

theorem encodeAll_cons (i : Instr) (is : List Instr) : encodeAll (i :: is) = encode i ++ encodeAll is :=
  List.flatMap_cons

theorem encodeAll_length (is : List Instr) : (encodeAll is).length = (is.map Instr.size).sum := by
  simp [encodeAll, List.length_flatMap, encode_length]

/-- Every instruction has a byte, so that a bound of the stream's length is enough for a walk. -/
theorem length_le_encodeAll_length (is : List Instr) : is.length ≤ (encodeAll is).length := by
  induction is with
  | nil => exact Nat.zero_le _
  | cons i is ih =>
    have hsize := size_range i
    rw [encodeAll_cons, List.length_append, encode_length, List.length_cons]
    omega

theorem walk_end (stream : List Byte) (fuel : Nat) : walk stream fuel stream.length = .ok [] := by
  cases fuel with
  | zero => rfl
  | succ fuel => exact if_pos le_rfl

/-- One round of the walk, at an instruction that stands there. -/
theorem walk_encode (before after : List Byte) {i : Instr} (h : i.wellFormed = true) (fuel : Nat) :
    walk (before ++ encode i ++ after) (fuel + 1) before.length =
      (walk (before ++ encode i ++ after) fuel (before.length + i.size)).map ((before.length, i) :: ·) := by
  have hinside : ¬ (before ++ encode i ++ after).length ≤ before.length := by
    have hsize := size_range i
    simp only [List.length_append, encode_length]
    omega
  rw [walk, if_neg hinside, decodeOne_encode before after h]

/-- A walk that begins with any bytes behind it lays the rest of the stream out from there. -/
theorem walk_encodeAll (is : List Instr) (hwf : ∀ i ∈ is, i.wellFormed = true) (before : List Byte) (fuel : Nat)
    (hfuel : is.length ≤ fuel) :
    walk (before ++ encodeAll is) fuel before.length = .ok (layout before.length is) := by
  induction is generalizing before fuel with
  | nil =>
    have hend : before ++ encodeAll [] = before := List.append_nil before
    rw [hend]
    exact walk_end before fuel
  | cons i is ih =>
    obtain ⟨hi, his⟩ := List.forall_mem_cons.mp hwf
    obtain ⟨fuel, rfl⟩ := Nat.exists_eq_add_of_le' (Nat.one_le_of_lt hfuel)
    have hnext : (before ++ encode i).length = before.length + i.size := by rw [List.length_append, encode_length]
    have hrest := ih his (before ++ encode i) fuel (Nat.le_of_succ_le_succ hfuel)
    rw [hnext] at hrest
    rw [encodeAll_cons, ← List.append_assoc, walk_encode before _ hi, hrest]
    rfl

/-! ### Bytes read at most (R87, R113) -/

/-- The answer `r` of a part of the decoder on `bs` rests on at most `k` bytes: it leaves all but `k` of them, and is
Truncated only for fewer than `k`. -/
def ReadsAtMost {α : Type} (k : Nat) (bs : List Byte) (r : Parse α) : Prop :=
  match r with
  | .ok (_, rest) => bs.length ≤ rest.length + k
  | .error e => e = .truncated → bs.length < k

theorem ReadsAtMost.ok {α : Type} (a : α) (bs : List Byte) : ReadsAtMost 0 bs (.ok (a, bs)) := Nat.le_refl _

theorem ReadsAtMost.unknownOpcode {α : Type} (k : Nat) (bs : List Byte) :
    ReadsAtMost k bs (.error .unknownOpcode : Parse α) := nofun

theorem ReadsAtMost.mono {α : Type} {k l : Nat} {bs : List Byte} {r : Parse α} (h : ReadsAtMost k bs r) (hkl : k ≤ l) :
    ReadsAtMost l bs r := by
  cases r with
  | ok p => exact h.trans (Nat.add_le_add_left hkl _)
  | error e => exact fun he => (h he).trans_le hkl

theorem ReadsAtMost.andThen {α β : Type} {k l : Nat} {bs : List Byte} {r : Parse α} {f : α → List Byte → Parse β}
    (hr : ReadsAtMost k bs r) (hf : ∀ a rest, ReadsAtMost l rest (f a rest)) :
    ReadsAtMost (k + l) bs (andThen r f) := by
  cases r with
  | error e => exact fun he => (hr he).trans_le (Nat.le_add_right k l)
  | ok p =>
    obtain ⟨a, rest⟩ := p
    have hk : bs.length ≤ rest.length + k := hr
    have hl := hf a rest
    rw [andThen_ok]
    cases hnext : f a rest with
    | ok q =>
      rw [hnext] at hl
      have hl : rest.length ≤ q.2.length + l := hl
      show bs.length ≤ q.2.length + (k + l)
      omega
    | error e =>
      rw [hnext] at hl
      intro he
      have := hl he
      omega

theorem ReadsAtMost.map {α β : Type} {k : Nat} {bs : List Byte} {r : Parse α} (hr : ReadsAtMost k bs r) (g : α → β) :
    ReadsAtMost k bs (Sys2Proof.andThen r fun a rest => .ok (g a, rest)) :=
  hr.andThen fun a rest => .ok (g a) rest

theorem takeByte_readsAtMost (bs : List Byte) : ReadsAtMost 1 bs (takeByte bs) := by
  cases bs with
  | nil => exact fun _ => Nat.one_pos
  | cons b bs => exact Nat.le_refl _

theorem takeWord_readsAtMost (bs : List Byte) : ReadsAtMost 2 bs (takeWord bs) := by
  match bs with
  | [] => exact fun _ => Nat.two_pos
  | [_] => exact fun _ => Nat.one_lt_two
  | lo :: hi :: bs => exact Nat.le_refl _

theorem takeRmOperand_readsAtMost (m : Fin 4) (r : RegField) (bs : List Byte) :
    ReadsAtMost 2 bs (takeRmOperand m r bs) := by
  unfold takeRmOperand
  split
  · split
    · exact (takeWord_readsAtMost bs).map _
    · exact (ReadsAtMost.ok _ bs).mono (by decide)
  · exact ((takeByte_readsAtMost bs).map _).mono (by decide)
  · exact (takeWord_readsAtMost bs).map _
  · exact (ReadsAtMost.ok _ bs).mono (by decide)

theorem takeData_readsAtMost (w : Width) (bs : List Byte) : ReadsAtMost 2 bs (takeData w bs) := by
  cases w with
  | byte => exact ((takeByte_readsAtMost bs).map _).mono (by decide)
  | word => exact takeWord_readsAtMost bs

theorem takeArithData_readsAtMost (s : Bool) (w : Width) (bs : List Byte) :
    ReadsAtMost 2 bs (takeArithData s w bs) := by
  unfold takeArithData
  split
  · exact ((takeByte_readsAtMost bs).map _).mono (by decide)
  · exact takeData_readsAtMost w bs

/-- Past the first byte: a mode byte, two bytes of displacement and two of data at most. -/
theorem decodeEntry_readsAtMost (e : TableEntry) (b0 : Byte) (bs : List Byte) :
    ReadsAtMost 5 bs (decodeEntry e b0 bs) := by
  cases e with
  | jne => exact ((takeByte_readsAtMost bs).map _).mono (by decide)
  | movMemAcc | movAccMem => exact ((takeWord_readsAtMost bs).map _).mono (by decide)
  | addImmAcc | subImmAcc | cmpImmAcc | movImmReg => exact ((takeData_readsAtMost _ bs).map _).mono (by decide)
  | movRegMem | addRegMem | subRegMem | cmpRegMem =>
    refine ReadsAtMost.mono (k := 1 + 2) ?_ (by decide)
    exact (takeByte_readsAtMost bs).andThen fun b1 rest => (takeRmOperand_readsAtMost _ _ rest).map _
  | movImmRegMem =>
    refine (takeByte_readsAtMost bs).andThen (l := 4) fun b1 rest => ?_
    split
    · exact (takeRmOperand_readsAtMost _ _ rest).andThen fun rm rest => (takeData_readsAtMost _ rest).map _
    · exact .unknownOpcode 4 rest
  | arithImmRegMem =>
    refine (takeByte_readsAtMost bs).andThen (l := 4) fun b1 rest => ?_
    split
    · exact .unknownOpcode 4 rest
    · exact (takeRmOperand_readsAtMost _ _ rest).andThen fun rm rest => (takeArithData_readsAtMost _ _ rest).map _

/-- No instruction needs more than six bytes. -/
theorem decode_ne_truncated {bs : List Byte} (h : 6 ≤ bs.length) : decode bs ≠ .error .truncated := by
  intro htrunc
  cases bs with
  | nil => simp at h
  | cons b0 bs =>
    cases he : firstByteEntry b0 with
    | none => simp [decode, he] at htrunc
    | some e =>
      have hread := decodeEntry_readsAtMost e b0 bs
      rw [← decode_cons he, htrunc] at hread
      have hshort : bs.length < 5 := hread rfl
      rw [List.length_cons] at h
      omega

/-! ### Where Truncated comes from (R111, R113) -/

/-- Six zero bytes complete whatever was cut off: the mode byte 0 and a zero displacement and immediate are legal everywhere,
and where nothing stood before them they are an ADD. -/
def zeroFill : List Byte := List.replicate 6 0

/-- More bytes do not make an illegal encoding legal. -/
theorem decode_append_unknownOpcode {bs : List Byte} (h : decode bs = .error .unknownOpcode) (more : List Byte) :
    decode (bs ++ more) = .error .unknownOpcode := by
  cases bs with
  | nil => cases h
  | cons b0 bs =>
    rw [List.cons_append]
    rcases decode_unknownOpcode.mp h with he | ⟨he, b1, rest, rfl, hext⟩ | ⟨he, b1, rest, rfl, hext⟩
    · exact decode_unknownOpcode.mpr (.inl he)
    · exact decode_unknownOpcode.mpr (.inr (.inl ⟨he, b1, rest ++ more, rfl, hext⟩))
    · exact decode_unknownOpcode.mpr (.inr (.inr ⟨he, b1, rest ++ more, rfl, hext⟩))

/-- More bytes after an instruction are left over. -/
theorem decode_append_ok {bs rest : List Byte} {i : Instr} (h : decode bs = .ok (i, rest)) (more : List Byte) :
    decode (bs ++ more) = .ok (i, rest ++ more) := by
  obtain ⟨hwf, rfl⟩ := readsAs_of_decode h
  rw [List.append_assoc]
  exact decode_encode i _ hwf

/-- A cut encoding is no instruction and no illegal encoding, for the whole encoding would then be read alike. -/
theorem decode_take_encode {i : Instr} (hwf : i.wellFormed = true) {n : Nat} (hn : n < i.size) :
    decode ((encode i).take n) = .error .truncated := by
  have hfull : decode ((encode i).take n ++ (encode i).drop n) = .ok (i, []) := by
    simpa using decode_encode i [] hwf
  cases hcut : decode ((encode i).take n) with
  | ok p =>
    obtain ⟨j, rest⟩ := p
    rw [decode_append_ok hcut, Except.ok.injEq, Prod.mk.injEq, List.append_eq_nil_iff, List.drop_eq_nil_iff,
      encode_length] at hfull
    omega
  | error e =>
    cases e with
    | truncated => rfl
    | unknownOpcode =>
      rw [decode_append_unknownOpcode hcut] at hfull
      cases hfull

/-- Zero bytes after a cut instruction make no illegal encoding of it. -/
theorem decode_zeroFill_ne_unknownOpcode {bs : List Byte} (h : decode bs = .error .truncated) :
    decode (bs ++ zeroFill) ≠ .error .unknownOpcode := by
  have hlegal : decode bs ≠ .error .unknownOpcode := by simp [h]
  match bs with
  | [] => decide
  | [b0] =>
    rw [Ne, decode_unknownOpcode] at hlegal
    rw [Ne, List.singleton_append, decode_unknownOpcode]
    rintro (he | ⟨-, b1, rest, hbs, hext⟩ | ⟨-, b1, rest, hbs, hext⟩)
    · exact hlegal (.inl he)
    · cases hbs
      cases hext
    · cases hbs
      exact hext rfl
  | b0 :: b1 :: bs =>
    rw [Ne, decode_unknownOpcode] at hlegal
    rw [Ne, List.cons_append, List.cons_append, decode_unknownOpcode]
    simpa using hlegal

/-- A cut instruction is completed by zero bytes. -/
theorem decode_zeroFill {bs : List Byte} (h : decode bs = .error .truncated) :
    ∃ i rest, decode (bs ++ zeroFill) = .ok (i, rest) := by
  have hlong : 6 ≤ (bs ++ zeroFill).length := by simp [zeroFill]
  cases hfill : decode (bs ++ zeroFill) with
  | ok p => exact ⟨p.1, p.2, rfl⟩
  | error e =>
    cases e with
    | truncated => exact absurd hfill (decode_ne_truncated hlong)
    | unknownOpcode => exact absurd hfill (decode_zeroFill_ne_unknownOpcode h)

/-- Bytes that are cut off stop inside the encoding of their completion. -/
theorem exists_take_encode_of_truncated {bs : List Byte} (h : decode bs = .error .truncated) :
    ∃ (i : Instr) (n : Nat), i.wellFormed = true ∧ n < i.size ∧ bs = (encode i).take n := by
  obtain ⟨i, rest, hfill⟩ := decode_zeroFill h
  obtain ⟨hwf, hbytes⟩ := readsAs_of_decode hfill
  rcases List.append_eq_append_iff.mp hbytes with ⟨more, henc, -⟩ | ⟨extra, rfl, -⟩
  · refine ⟨i, bs.length, hwf, ?_, by rw [henc, List.take_left]⟩
    have hmore : more ≠ [] := by
      rintro rfl
      rw [List.append_nil] at henc
      have hok := decode_encode i [] hwf
      rw [List.append_nil, henc, h] at hok
      cases hok
    rw [← encode_length, henc, List.length_append]
    exact Nat.lt_add_of_pos_right (List.length_pos_iff.mpr hmore)
  · rw [decode_encode i extra hwf] at h
    cases h

/-! ### The statements -/

/-- Settles O40, by the formats of the first-byte table. -/
theorem encodeOfDecode : Obligations.EncodeOfDecode := by
  unfold Obligations.EncodeOfDecode
  exact fun _ _ _ h => readsAs_of_decode h

/-- Settles O41, by induction on the list, for a walk that begins anywhere in a stream. -/
theorem walkConsumesStreamExactly : Obligations.WalkConsumesStreamExactly := by
  unfold Obligations.WalkConsumesStreamExactly
  exact fun is hwf => ⟨walk_encodeAll is hwf [] _ (length_le_encodeAll_length is), encodeAll_length is⟩

/-- Settles O42: the window at the offset begins with the encoding. -/
theorem decodingDependsOnBytesAlone : Obligations.DecodingDependsOnBytesAlone := by
  unfold Obligations.DecodingDependsOnBytesAlone
  exact fun before after _ h => decodeOne_encode before after h

/-- Settles O47: bytes that are cut off are completed by zero bytes, and what a cut encoding is completed to rules out every
answer but Truncated. -/
theorem truncatedExactlyForProperPrefixes : Obligations.TruncatedExactlyForProperPrefixes := by
  unfold Obligations.TruncatedExactlyForProperPrefixes
  intro bs
  constructor
  · exact exists_take_encode_of_truncated
  · rintro ⟨i, n, hwf, hn, rfl⟩
    exact decode_take_encode hwf hn

/-- Settles O49, by evaluation of the ten byte sequences. -/
theorem writtenOutWordsDecodeToTheirRecords : Obligations.WrittenOutWordsDecodeToTheirRecords := by
  unfold Obligations.WrittenOutWordsDecodeToTheirRecords
  exact ⟨rfl, rfl, rfl, rfl, rfl, rfl, rfl, rfl, rfl, rfl⟩

end Sys2Proof
end

section
/-! PROOFS. The engine step (41_engine_step.md): the effective address and its displacement, the advance past a decoded
instruction, what the engine does with the bytes at `ip`, and runs of a legal stream; then the statements of that family. -/

namespace Sys2Proof.Machine

/-! ### The displacement of an effective address (R148, R91) -/

/-- The displacement is added last, as a word. -/
theorem State.ea_eq_add (s : State) (baseTerms : List RegField) (d : Word) :
    s.ea baseTerms d = s.ea baseTerms 0 + d := by
  apply BitVec.eq_of_toNat_eq
  simp [State.ea]

/-- Adding a sign-extended byte is adding its signed value modulo 2^16. -/
theorem toNat_add_sext16 (v : Word) (d : Byte) :
    ((v + sext16 d).toNat : Int) = (v.toNat + d.toInt) % 65536 := by
  have hext : (sext16 d).toNat = (d.toInt % 65536).toNat := BitVec.toNat_ofInt d.toInt
  rw [BitVec.toNat_add, hext]
  omega

/-! ### The advance (R142) -/

theorem decode_window_of_decodeOne {stream : List Byte} {offset : Nat} {i : Instr} (h : decodeOne stream offset = .ok i) :
    ∃ rest, decode (window stream offset) = .ok (i, rest) := by
  unfold decodeOne at h
  cases hd : decode (window stream offset) with
  | error e =>
    rw [hd] at h
    cases h
  | ok p =>
    rw [hd] at h
    cases h
    exact ⟨p.2, rfl⟩

theorem window_length_le (stream : List Byte) (offset : Nat) :
    (window stream offset).length ≤ stream.length - offset :=
  (List.length_take_le' _ _).trans_eq List.length_drop

/-- A decoded instruction lies inside the stream. -/
theorem add_size_le_of_decodeOne {stream : List Byte} {offset : Nat} {i : Instr} (h : decodeOne stream offset = .ok i) :
    offset + i.size ≤ stream.length := by
  obtain ⟨rest, hd⟩ := decode_window_of_decodeOne h
  obtain ⟨hlen, hmin, -⟩ := decodedSizeIsTwoToSixBytes _ _ _ hd
  have hwindow := window_length_le stream offset
  omega

/-- No wrap, wherever the byte after the instruction has an offset of 16 bits. -/
theorem State.advance_ip_toNat {s : State} {i : Instr} (h : s.ip.toNat + i.size ≤ Config.streamMax) :
    (s.advance i).ip.toNat = s.ip.toNat + i.size := by
  have hlt : s.ip.toNat + i.size < 2 ^ 16 := Nat.lt_succ_of_le h
  rw [State.advance_ip, BitVec.toNat_add, BitVec.toNat_ofNat, Nat.add_mod_mod, Nat.mod_eq_of_lt hlt]

/-! ### `ip` under a meaning (R143) -/

theorem State.arith_ip (s : State) (op : AluOp) (w : Width) (dst : Place) (src : Source) :
    (s.arith op w dst src).ip = s.ip := by
  obtain ⟨u, r, rfl | rfl, ht⟩ := s.arith_cases op w dst src
  · rw [ht, State.setFlags_ip]
  · rw [ht, State.setFlags_ip, State.writePlace_ip]

/-- Only JNE moves `ip`. -/
theorem exec_ip_of_isMov_or_isArith {i : Instr} {s t : State} (h : exec i s = .next t)
    (hi : i.isMov = true ∨ i.isArith = true) : t.ip = s.ip := by
  rcases hi with hi | hi
  · obtain ⟨w, dst, src, he⟩ := exec_of_isMov hi
    cases (he s).symm.trans h
    exact s.writePlace_ip w dst _
  · obtain ⟨op, w, dst, src, he⟩ := exec_of_isArith hi
    cases (he s).symm.trans h
    exact s.arith_ip op w dst src

theorem exec_jne_ip {d : Byte} {s t : State} (h : exec (.jne d) s = .next t) :
    t.ip = if s.zf = true then s.ip else s.ip + sext16 d := by
  cases (exec_jne d s).symm.trans h
  exact apply_ite State.ip _ _ _

/-! ### What the engine does with the bytes at `ip` (R141, R146) -/

theorem isUnsupported_eq_true_iff {forms : List FormPattern} {i : Instr} :
    isUnsupported forms i = true ↔ ∃ p ∈ forms, p.accepts i.form = true := List.any_eq_true

theorem isUnsupported_eq_false_iff {forms : List FormPattern} {i : Instr} :
    isUnsupported forms i = false ↔ ∀ p ∈ forms, p.accepts i.form = false := by
  simp [isUnsupported]

theorem engineStep_error (forms : List FormPattern) {s : State} (hf : s.Fetches) {e : DecodeError}
    (hd : decodeOne s.stream s.ip.toNat = .error e) : engineStep forms s = .next (s.raise (faultOfDecode e)) :=
  (engineStep_fetches forms hf).trans (fetchAndRun_error forms hd)

theorem engineStep_unsupported {forms : List FormPattern} {s : State} (hf : s.Fetches) {i : Instr}
    (hd : decodeOne s.stream s.ip.toNat = .ok i) (hu : isUnsupported forms i = true) :
    engineStep forms s = .next (s.raise .unsupportedOperation) :=
  (engineStep_fetches forms hf).trans (fetchAndRun_unsupported forms hd hu)

theorem engineStep_exec {forms : List FormPattern} {s : State} (hf : s.Fetches) {i : Instr}
    (hd : decodeOne s.stream s.ip.toNat = .ok i) (hu : isUnsupported forms i = false) :
    engineStep forms s = exec i (s.advance i) :=
  (engineStep_fetches forms hf).trans (fetchAndRun_exec forms hd hu)

/-! ### Runs of a legal stream (R140, R204) -/

theorem engineStep_answers (forms : List FormPattern) {s : State} (hl : s.LegalStream) :
    ∃ t, engineStep forms s = .next t := by
  by_cases hr : s.status = .running
  · rcases Nat.lt_or_ge s.ip.toNat s.stream.length with hip | hend
    · have hf : s.Fetches := ⟨hr, hl, hip⟩
      cases hd : decodeOne s.stream s.ip.toNat with
      | error e => exact ⟨_, engineStep_error forms hf hd⟩
      | ok i =>
        cases hu : isUnsupported forms i with
        | true => exact ⟨_, engineStep_unsupported hf hd hu⟩
        | false =>
          obtain ⟨t, ht⟩ := exec_answers i (s.advance i)
          exact ⟨t, (engineStep_exec hf hd hu).trans ht⟩
    · exact ⟨_, engineStep_end forms hr hl hend⟩
  · exact ⟨s, engineStep_stopped forms hr⟩

theorem exists_reaches {s : State} (hl : s.LegalStream) (k : Nat) : ∃ t, Reaches k s t := by
  induction k generalizing s with
  | zero => exact ⟨s, reaches_zero.mpr rfl⟩
  | succ k ih =>
    obtain ⟨u, hu⟩ := engineStep_answers Config.unsupportedForms hl
    have hlu : u.LegalStream := by rwa [State.LegalStream, engineStep_stream hu]
    obtain ⟨t, ht⟩ := ih hlu
    exact ⟨t, reaches_succ.mpr ⟨u, hu, ht⟩⟩

/-! ### The statements -/

/-- Settles O9: the displacement is added last, and a sign-extended byte adds its signed value. -/
theorem byteDisplacementIsSigned : Obligations.ByteDisplacementIsSigned := by
  unfold Obligations.ByteDisplacementIsSigned
  intro s b d
  refine ⟨rfl, ?_⟩
  rw [State.ea_eq_add]
  exact toNat_add_sext16 _ d

/-- Settles O26: the instruction lies inside the stream, whose length has 16 bits. -/
theorem advanceNeverWraps : Obligations.AdvanceNeverWraps := by
  unfold Obligations.AdvanceNeverWraps
  rintro s i ⟨-, hl, -⟩ hd
  have hle := add_size_le_of_decodeOne hd
  exact ⟨State.advance_ip_toNat (hle.trans hl), hle⟩

/-- Settles O27, case by case of the cycle; an executed instruction starts with `ip` advanced, and only JNE moves it on. -/
theorem ipStateMachine : Obligations.IpStateMachine := by
  unfold Obligations.IpStateMachine
  intro forms s t hl h
  refine ⟨fun hs => ?_, fun hr hend => ?_, fun hf e hd => ?_, fun hf i hd => ⟨fun hu => ?_, fun hu => ?_⟩⟩
  · cases (engineStep_stopped forms hs).symm.trans h
    exact ⟨rfl, rfl⟩
  · cases (engineStep_end forms hr hl hend).symm.trans h
    exact ⟨rfl, rfl⟩
  · cases (engineStep_error forms hf hd).symm.trans h
    exact ⟨rfl, rfl⟩
  · cases (engineStep_unsupported hf hd hu).symm.trans h
    exact ⟨rfl, rfl⟩
  · have he := (engineStep_exec hf hd hu).symm.trans h
    obtain ⟨hr, -, -⟩ := hf
    refine ⟨(exec_status he).trans hr, exec_ip_of_isMov_or_isArith he, ?_, ?_⟩
    · rintro d rfl hz
      exact (exec_jne_ip he).trans (if_pos hz)
    · rintro d rfl hz
      exact (exec_jne_ip he).trans (if_neg (Bool.eq_false_iff.mp hz))

/-- Settles O38: every step of a legal stream answers a next state, so a run of any length does, and it keeps the invariant
of its start and its stream. -/
theorem everyRunOfLegalStreamCompletesInInvariant : Obligations.EveryRunOfLegalStreamCompletesInInvariant := by
  unfold Obligations.EveryRunOfLegalStreamCompletesInInvariant
  intro stream k h
  obtain ⟨t, ht⟩ := exists_reaches (s := State.launch stream) h k
  exact ⟨t, ht, Reaches.keeps everyStepKeepsInvariant (State.launch_inv h) ht, streamIsReadOnly k _ t ht⟩

/-- Settles O8: each list has no term, one or two. -/
theorem effectiveAddressOfEveryBaseList : Obligations.EffectiveAddressOfEveryBaseList := by
  unfold Obligations.EffectiveAddressOfEveryBaseList
  refine ⟨fun s d => ⟨s.ea_direct d, s.ea_two _ _ d, s.ea_two _ _ d, s.ea_two _ _ d, s.ea_two _ _ d,
    s.ea_one _ d, s.ea_one _ d, s.ea_one _ d, s.ea_one _ d⟩, fun s hbx hsi => ?_⟩
  rw [State.ea_two, hbx, hsi]
  rfl

/-- Settles O24: each case of the cycle has its equation. -/
theorem stepFollowsTheCycle : Obligations.StepFollowsTheCycle := by
  unfold Obligations.StepFollowsTheCycle
  intro forms s hl
  refine ⟨engineStep_stopped forms, fun hr hend => engineStep_end forms hr hl hend, fun hr hip => ?_⟩
  have hf : s.Fetches := ⟨hr, hl, hip⟩
  exact ⟨engineStep_error forms hf, engineStep_error forms hf, fun i hd =>
    ⟨fun hu => engineStep_unsupported hf hd (isUnsupported_eq_true_iff.mpr hu),
      fun hu => engineStep_exec hf hd (isUnsupported_eq_false_iff.mpr hu)⟩⟩

/-- Settles O25: the default set holds no form. -/
theorem stepRunsDecodedInstruction : Obligations.StepRunsDecodedInstruction := by
  unfold Obligations.StepRunsDecodedInstruction
  exact fun s i hf hd => engineStep_exec hf hd (isUnsupported_default i)

end Sys2Proof.Machine
end

section
/-! PROOFS. The five MOV forms (42_mov.md): a meaning that is a copy, what the engine answers for a decoded instruction, and
the statement of that family. -/

namespace Sys2Proof.Machine

/-! ### A meaning that is a copy (R160) -/

theorem exec_answersNext_copies {i : Instr} {s : State} {w : Width} {dst : Place} {src : Source} (hm : s.mem.wf = true)
    (he : exec i s = .next (s.copy w dst src)) : AnswersNext (exec i s) (Copies w dst (s.readSource w src) s) :=
  ⟨_, he, s.copy_copies w dst src hm⟩

/-! ### What the engine answers for a decoded instruction (R141, R203) -/

/-- A supported instruction leaves the engine running, for no meaning writes the run status. -/
theorem engineStep_answersNext_running {forms : List FormPattern} {s : State} (hf : s.Fetches) {i : Instr}
    (hd : decodeOne s.stream s.ip.toNat = .ok i) (hu : isUnsupported forms i = false) :
    AnswersNext (engineStep forms s) fun t => t.status = .running := by
  obtain ⟨t, ht⟩ := exec_answers i (s.advance i)
  refine ⟨t, (engineStep_exec hf hd hu).trans ht, ?_⟩
  obtain ⟨hr, -, -⟩ := hf
  rw [exec_status ht, State.advance_status, hr]

/-! ### The statement -/

/-- Settles O10: each form, in each direction, is a copy between the places R161 to R165 name, and the engine's two answers
are told apart by the set of unsupported forms. -/
theorem movFormsCopySource : Obligations.MovFormsCopySource := by
  unfold Obligations.MovFormsCopySource
  refine ⟨fun s hm => ⟨fun w reg rm => ?_, fun w reg rm => ?_, fun w rm data => ?_, fun w reg data => ?_,
    fun w addr => ?_, fun w addr => ?_⟩, fun forms s i _ hf hd => ?_⟩
  · exact exec_answersNext_copies (src := .place rm.place) hm rfl
  · exact exec_answersNext_copies (src := .place (.register reg)) hm rfl
  · exact exec_answersNext_copies (src := .immediate data) hm rfl
  · exact exec_answersNext_copies (src := .immediate data) hm rfl
  · have hcopy := exec_answersNext_copies (i := .movMemAcc w addr) (src := .place (.memory [] addr)) hm rfl
    rwa [State.readSource, State.readPlace, State.ea_direct] at hcopy
  · exact exec_answersNext_copies (src := .place (.register accumulator)) hm rfl
  · cases hu : isUnsupported forms i with
    | true => exact .inr ⟨rfl, engineStep_unsupported hf hd hu⟩
    | false => exact .inl ⟨rfl, engineStep_answersNext_running hf hd hu⟩

end Sys2Proof.Machine
end

section
/-! PROOFS. ADD, SUB and CMP (43_add_sub_cmp.md): what a form that is an ALU operation answers, results that are the same
for two operations, and byte registers that do not meet; then the statements of that family. -/

namespace Sys2Proof.Machine

/-! ### A meaning that is an ALU operation (R170) -/

theorem exec_answersNext_stores_sum {i : Instr} {s : State} {w : Width} (dst : Place) (src : Source)
    (hm : s.mem.wf = true) (he : exec i s = .next (s.arith .add w dst src)) :
    ∃ r, IsSum (s.readPlace w dst) (s.readSource w src) r ∧ AnswersNext (exec i s) (Stores w dst r s) :=
  ⟨_, result_add_isSum _ _, _, he, s.arith_add_stores w dst src hm⟩

theorem exec_answersNext_stores_difference {i : Instr} {s : State} {w : Width} (dst : Place) (src : Source)
    (hm : s.mem.wf = true) (he : exec i s = .next (s.arith .sub w dst src)) :
    ∃ r, IsDifference (s.readPlace w dst) (s.readSource w src) r ∧ AnswersNext (exec i s) (Stores w dst r s) :=
  ⟨_, result_sub_isDifference _ _, _, he, s.arith_sub_stores w dst src hm⟩

theorem exec_answersNext_compares_difference {i : Instr} {s : State} {w : Width} (dst : Place) (src : Source)
    (he : exec i s = .next (s.arith .cmp w dst src)) :
    ∃ r, IsDifference (s.readPlace w dst) (s.readSource w src) r ∧ AnswersNext (exec i s) (Compares w r s) :=
  ⟨_, result_cmp_isDifference _ _, _, he, s.arith_cmp_compares w dst src⟩

/-! ### Laws of the results (R183) -/

@[simp] theorem zeroFlag_zero (n : Nat) : zeroFlag 0#n = true := (zeroFlag_iff _).mpr rfl

@[simp] theorem signFlag_zero (n : Nat) : signFlag 0#n = false := BitVec.msb_zero

theorem AluOp.result_sub_self {n : Nat} (a : BitVec n) : AluOp.sub.result a a = 0#n := by
  rw [AluOp.result_sub, BitVec.sub_self]

theorem AluOp.result_add_neg {n : Nat} (a b : BitVec n) : AluOp.add.result a (-b) = AluOp.sub.result a b := by
  rw [AluOp.result_add, AluOp.result_sub, BitVec.sub_eq_add_neg]

theorem State.arith_sub_self (s : State) (w : Width) (p : Place) :
    s.arith .sub w p (.place p) = (s.writePlace w p 0#w.bits).setFlags true false := by
  have hr : s.aluResult .sub w p (.place p) = 0#w.bits := AluOp.result_sub_self _
  rw [State.arith_sub, hr, zeroFlag_zero, signFlag_zero]

/-- Adding a source is subtracting the source of the opposite value. -/
theorem State.arith_add_eq_arith_sub (s : State) (w : Width) (dst : Place) {src src' : Source}
    (h : s.readSource w src = -s.readSource w src') : s.arith .add w dst src = s.arith .sub w dst src' := by
  have hr : s.aluResult .add w dst src = s.aluResult .sub w dst src' := by
    rw [State.aluResult, h, AluOp.result_add_neg]
  rw [State.arith_add, State.arith_sub, hr]

theorem State.arith_sub_sameFlags_arith_cmp (s : State) (w : Width) (dst : Place) (src : Source) :
    SameFlags (s.arith .sub w dst src) (s.arith .cmp w dst src) := by
  have hr : s.aluResult .cmp w dst src = s.aluResult .sub w dst src := by
    rw [State.aluResult, AluOp.result_cmp, State.aluResult, AluOp.result_sub]
  rw [State.arith_sub, State.arith_cmp, hr]
  exact ⟨rfl, rfl⟩

/-! ### Byte registers that do not meet (R23, R25) -/

/-- A byte name is its cell and its half. -/
theorem byteName_ext : ∀ {i j : RegField}, byteCell i = byteCell j → byteHalf i = byteHalf j → i = j := by decide

theorem State.setReg_setReg_self (s : State) (i : RegField) (u v : Word) : (s.setReg i u).setReg i v = s.setReg i v := by
  simp [State.setReg]

theorem State.setReg_comm (s : State) {i j : RegField} (h : i ≠ j) (u v : Word) :
    (s.setReg i u).setReg j v = (s.setReg j v).setReg i u := by
  simp only [State.setReg]
  rw [Vector.set_comm _ _ (Fin.val_ne_of_ne h)]

theorem withHalf_comm {g h : Half} (hg : g ≠ h) (v : Word) (b c : Byte) :
    withHalf g (withHalf h v b) c = withHalf h (withHalf g v c) b := by
  cases g <;> cases h <;> simp_all [withHalf]

theorem State.regRead_regWrite_byte_ne (s : State) {i j : RegField} (h : i ≠ j) (v : Byte) :
    (s.regWrite j .byte v).regRead i .byte = s.regRead i .byte :=
  s.regHalf_regWrite_outside j .byte v fun ⟨hc, hh⟩ => h (byteName_ext hc hh)

/-- Writes to two byte names commute, whether they are the halves of one cell or stand in two cells. -/
theorem State.regWrite_byte_comm (s : State) {i j : RegField} (h : i ≠ j) (u v : Byte) :
    (s.regWrite j .byte v).regWrite i .byte u = (s.regWrite i .byte u).regWrite j .byte v := by
  simp only [State.regWrite]
  by_cases hc : byteCell i = byteCell j
  · have hh : byteHalf i ≠ byteHalf j := fun hh => h (byteName_ext hc hh)
    rw [hc, State.reg_setReg_self, State.reg_setReg_self, State.setReg_setReg_self, State.setReg_setReg_self,
      withHalf_comm hh]
  · rw [State.reg_setReg_ne _ _ hc, State.reg_setReg_ne _ _ (Ne.symm hc), State.setReg_comm _ (Ne.symm hc)]

theorem State.regWrite_setFlags (s : State) (z n : Bool) (i : RegField) (w : Width) (v : BitVec w.bits) :
    (s.setFlags z n).regWrite i w v = (s.regWrite i w v).setFlags z n := s.writePlace_setFlags z n w (.register i) v

/-- A byte operation on one byte register and an immediate neither reads nor changes another. -/
theorem State.arith_regWrite_byte_ne (s : State) {i j : RegField} (h : i ≠ j) (v : Byte) (op : AluOp) (data : Word) :
    (s.regWrite j .byte v).arith op .byte (.register i) (.immediate data) =
      (s.arith op .byte (.register i) (.immediate data)).regWrite j .byte v := by
  have hr : (s.regWrite j .byte v).aluResult op .byte (.register i) (.immediate data) =
      s.aluResult op .byte (.register i) (.immediate data) :=
    congrArg (op.result · (immediateAt .byte data)) (s.regRead_regWrite_byte_ne h v)
  cases op with
  | cmp => rw [State.arith_cmp, State.arith_cmp, State.regWrite_setFlags, hr]
  | add | sub =>
    simp only [State.arith_add, State.arith_sub, hr, State.writePlace, State.regWrite_byte_comm s h,
      State.regWrite_setFlags]

/-- A byte form on AL and an immediate leaves AH out. -/
theorem exec_byteAcc_regWrite_ah {i : Instr} {op : AluOp} {data : Word}
    (he : ∀ s, exec i s = .next (s.arith op .byte (.register accumulator) (.immediate data))) (s : State) (ah : Byte) :
    ∃ t, exec i s = .next t ∧ exec i (s.regWrite 4 .byte ah) = .next (t.regWrite 4 .byte ah) :=
  ⟨_, he s, by rw [he, State.arith_regWrite_byte_ne s (by decide) ah]⟩

/-! ### The statements -/

/-- Settles O11: each form, in each direction, is the addition of the operands R174 to R176 name. -/
theorem addFormsStoreSumAndSetFlags : Obligations.AddFormsStoreSumAndSetFlags := by
  unfold Obligations.AddFormsStoreSumAndSetFlags
  intro s hm
  exact ⟨fun _ reg rm => exec_answersNext_stores_sum (.register reg) (.place rm.place) hm rfl,
    fun _ reg rm => exec_answersNext_stores_sum rm.place (.place (.register reg)) hm rfl,
    fun _ _ rm data => exec_answersNext_stores_sum rm.place (.immediate data) hm rfl,
    fun _ data => exec_answersNext_stores_sum (.register accumulator) (.immediate data) hm rfl⟩

/-- Settles O12: each form, in each direction, is the subtraction of the operands R177 to R179 name. -/
theorem subFormsStoreDifferenceAndSetFlags : Obligations.SubFormsStoreDifferenceAndSetFlags := by
  unfold Obligations.SubFormsStoreDifferenceAndSetFlags
  intro s hm
  exact ⟨fun _ reg rm => exec_answersNext_stores_difference (.register reg) (.place rm.place) hm rfl,
    fun _ reg rm => exec_answersNext_stores_difference rm.place (.place (.register reg)) hm rfl,
    fun _ _ rm data => exec_answersNext_stores_difference rm.place (.immediate data) hm rfl,
    fun _ data => exec_answersNext_stores_difference (.register accumulator) (.immediate data) hm rfl⟩

/-- Settles O13: each form, in each direction, is the comparison of the operands R180 to R182 name. -/
theorem cmpFormsSetFlagsOnly : Obligations.CmpFormsSetFlagsOnly := by
  unfold Obligations.CmpFormsSetFlagsOnly
  intro s
  exact ⟨fun _ reg rm => exec_answersNext_compares_difference (.register reg) (.place rm.place) rfl,
    fun _ reg rm => exec_answersNext_compares_difference rm.place (.place (.register reg)) rfl,
    fun _ _ rm data => exec_answersNext_compares_difference rm.place (.immediate data) rfl,
    fun _ data => exec_answersNext_compares_difference (.register accumulator) (.immediate data) rfl⟩

/-- Settles O17: in either direction the form subtracts the register from itself, which writes zero. -/
theorem subtractingARegisterFromItselfGivesZero : Obligations.SubtractingARegisterFromItselfGivesZero := by
  unfold Obligations.SubtractingARegisterFromItselfGivesZero
  intro s d w r
  have he : exec (.subRegMem d w r (.reg r)) s = .next (s.arith .sub w (.register r) (.place (.register r))) := by
    cases d <;> rfl
  rw [State.arith_sub_self] at he
  refine ⟨_, he, ?_, rfl, rfl⟩
  calc ((s.regWrite r w 0#w.bits).setFlags true false).regRead r w
      = (s.regWrite r w 0#w.bits).regRead r w := State.readPlace_setFlags _ true false w (.register r)
    _ = 0 := s.regRead_regWrite_self r w 0#w.bits

/-- Settles O18: AL and AH are two byte registers, and each form is a byte operation on AL and an immediate. -/
theorem byteAccumulatorFormsIgnoreHighHalf : Obligations.ByteAccumulatorFormsIgnoreHighHalf := by
  unfold Obligations.ByteAccumulatorFormsIgnoreHighHalf
  rintro s ah data i (rfl | rfl | rfl)
  · exact exec_byteAcc_regWrite_ah (op := .add) (fun _ => rfl) s ah
  · exact exec_byteAcc_regWrite_ah (op := .sub) (fun _ => rfl) s ah
  · exact exec_byteAcc_regWrite_ah (op := .cmp) (fun _ => rfl) s ah

/-- Settles O15: the two operations compute one result. -/
theorem subAndCmpLeaveSameFlags : Obligations.SubAndCmpLeaveSameFlags := by
  unfold Obligations.SubAndCmpLeaveSameFlags
  intro s
  exact ⟨fun _ w _ _ => ⟨_, _, rfl, rfl, s.arith_sub_sameFlags_arith_cmp w _ _⟩,
    fun _ w _ _ => ⟨_, _, rfl, rfl, s.arith_sub_sameFlags_arith_cmp w _ _⟩,
    fun w _ => ⟨_, _, rfl, rfl, s.arith_sub_sameFlags_arith_cmp w _ _⟩⟩

/-- Settles O16: as a word, 0xFFFF is the opposite of 1. -/
theorem addingMinusOneIsSubtractingOne : Obligations.AddingMinusOneIsSubtractingOne := by
  unfold Obligations.AddingMinusOneIsSubtractingOne
  intro s rm
  have hneg : s.readSource .word (.immediate 0xFFFF) = -s.readSource .word (.immediate 0x0001) := by
    show (0xFFFF : Word) = -0x0001
    decide
  exact congrArg Host.Outcome.next (s.arith_add_eq_arith_sub .word rm.place hneg)

/-- Settles O19: a result is a sum or difference of bit vectors, and each row is then evaluated. -/
theorem aluCornerCaseTable : Obligations.AluCornerCaseTable := by
  unfold Obligations.AluCornerCaseTable
  simp only [AluOp.result_add, AluOp.result_sub, AluOp.result_cmp]
  decide

end Sys2Proof.Machine
end

section
/-! PROOFS. JNE (44_jne.md): its two answers, the step of a taken jump as one addition to `ip`, and the step after it; then
the statements of that family. -/

namespace Sys2Proof.Machine

/-! ### The two answers of JNE (R190) -/

theorem exec_jne_of_zf {s : State} (hz : s.zf = true) (d : Byte) : exec (.jne d) s = .next s := by
  rw [exec_jne, if_pos hz]

theorem exec_jne_of_not_zf {s : State} (hz : s.zf = false) (d : Byte) :
    exec (.jne d) s = .next (s.addIp (sext16 d)) := by
  rw [exec_jne, if_neg (Bool.eq_false_iff.mp hz)]

/-! ### The step of a taken jump (R191) -/

theorem State.addIp_addIp (s : State) (u v : Word) : (s.addIp u).addIp v = s.addIp (u + v) :=
  congrArg (fun ip => { s with ip := ip }) (BitVec.add_assoc s.ip u v)

@[simp] theorem State.addIp_zero (s : State) : s.addIp 0#16 = s :=
  congrArg (fun ip => { s with ip := ip }) (BitVec.add_zero s.ip)

theorem step_jne_taken {s : State} {d : Byte} (hf : s.Fetches) (hd : decodeOne s.stream s.ip.toNat = .ok (.jne d))
    (hz : s.zf = false) : step s = .next (s.addIp (2#16 + sext16 d)) :=
  calc step s
    _ = exec (.jne d) (s.addIp 2#16) := stepRunsDecodedInstruction s (.jne d) hf hd
    _ = .next ((s.addIp 2#16).addIp (sext16 d)) := exec_jne_of_not_zf (s := s.addIp 2#16) hz d
    _ = .next (s.addIp (2#16 + sext16 d)) := by rw [State.addIp_addIp]

/-- The target, counted from the jump's own offset. -/
theorem toNat_add_two_add_sext16 (v : Word) (d : Byte) :
    ((v + (2#16 + sext16 d)).toNat : Int) = (v.toNat + 2 + d.toInt) % 65536 := by
  rw [← BitVec.add_assoc, toNat_add_sext16, BitVec.toNat_add, BitVec.toNat_ofNat]
  omega

/-! ### The statements -/

/-- Settles O20: the two answers of JNE, each with the state it leaves. -/
theorem jneAddsDisplacementWhenZeroFlagClear : Obligations.JneAddsDisplacementWhenZeroFlagClear := by
  unfold Obligations.JneAddsDisplacementWhenZeroFlagClear
  intro d s
  refine ⟨rfl, decode_encode (.jne d) [] rfl, rfl, stepRunsDecodedInstruction s (.jne d),
    fun hz => exec_jne_of_zf hz d, fun hz => ?_⟩
  exact ⟨_, exec_jne_of_not_zf hz d, toNat_add_sext16 s.ip d, ⟨rfl, rfl⟩, fun _ => rfl, fun _ => rfl, rfl, rfl⟩

/-- Settles O21: the jump's step only adds to `ip`, so the engine still runs the same legal stream. -/
theorem takenJumpContinuesAtTarget : Obligations.TakenJumpContinuesAtTarget := by
  unfold Obligations.TakenJumpContinuesAtTarget
  intro s d hf hd hz
  have hstep := step_jne_taken hf hd hz
  obtain ⟨hr, hl, -⟩ := hf
  exact ⟨_, hstep, hr, toNat_add_two_add_sext16 s.ip d,
    engineStep_end (s := s.addIp (2#16 + sext16 d)) _ hr hl⟩

/-- Settles O22: the jump lies inside the stream and reaches at most 127 bytes past its own end; a target before 0 is at
least -126, which wraps to 65 410 or more, past the end of the stream. -/
theorem wrappedJumpHaltsOnShortStream : Obligations.WrappedJumpHaltsOnShortStream := by
  unfold Obligations.WrappedJumpHaltsOnShortStream
  intro s d hf hshort hd
  have hinside : s.ip.toNat + 2 ≤ s.stream.length := add_size_le_of_decodeOne hd
  have hmin : -128 ≤ d.toInt := BitVec.le_toInt d
  have hmax : d.toInt < 128 := BitVec.toInt_lt
  refine ⟨by omega, fun hz hneg => ?_⟩
  obtain ⟨t, hst, -, htarget, hhalt⟩ := takenJumpContinuesAtTarget s d hf hd hz
  have hpast : s.stream.length ≤ t.ip.toNat := by omega
  exact ⟨t, hst, hhalt hpast⟩

/-- Settles O23, by induction on the number of steps: the displacement -2 undoes the advance, so each step answers the
state it started from. -/
theorem selfJumpNeverEnds : Obligations.SelfJumpNeverEnds := by
  unfold Obligations.SelfJumpNeverEnds
  intro s k hf hd hz
  have hback : 2#16 + sext16 0xFE = 0#16 := by decide
  have hself : step s = .next s := by
    rw [step_jne_taken hf hd hz, hback, State.addIp_zero]
  induction k with
  | zero => exact reaches_zero.mpr rfl
  | succ k ih => exact reaches_succ.mpr ⟨s, hself, ih⟩

end Sys2Proof.Machine
end

section
/-! PROOFS. Exceptions (60_exceptions.md): which decode error raises which fault, a step that faults, the status a running
engine steps to, and the statements of that family. -/

namespace Sys2Proof.Machine

/-! ### The fault of a decode error (R200) -/

@[simp] theorem faultOfDecode_eq_unknownOpcode_iff {e : DecodeError} :
    faultOfDecode e = .unknownOpcode ↔ e = .unknownOpcode := by
  cases e <;> simp [faultOfDecode]

@[simp] theorem faultOfDecode_eq_truncated_iff {e : DecodeError} : faultOfDecode e = .truncated ↔ e = .truncated := by
  cases e <;> simp [faultOfDecode]

@[simp] theorem faultOfDecode_ne_unsupportedOperation (e : DecodeError) : faultOfDecode e ≠ .unsupportedOperation := by
  cases e <;> exact nofun

theorem Fault.eq_or_eq_or_eq (f : Fault) : f = .unknownOpcode ∨ f = .truncated ∨ f = .unsupportedOperation := by
  cases f with
  | unknownOpcode => exact .inl rfl
  | truncated => exact .inr (.inl rfl)
  | unsupportedOperation => exact .inr (.inr rfl)

theorem Status.forall_ne_faulted_iff (st : Status) :
    (∀ kind offset, st ≠ .faulted kind offset) ↔ st = .running ∨ st = .halted := by
  cases st with
  | running => simp
  | halted => simp
  | faulted kind offset => simp

/-! ### A step that faults (R205, R206) -/

/-- Why the engine raises `kind` at `ip`: the decoder answers the error of that fault, or the decoded form is unsupported. -/
def FaultCause (forms : List FormPattern) (s : State) (kind : Fault) : Prop :=
  (∃ e, decodeOne s.stream s.ip.toNat = .error e ∧ kind = faultOfDecode e) ∨
  (∃ i, decodeOne s.stream s.ip.toNat = .ok i ∧ isUnsupported forms i = true ∧ kind = .unsupportedOperation)

/-- The cause of a fault tells its kind: at most one of the three can be. -/
theorem FaultCause.kind_iff {forms : List FormPattern} {s : State} {kind : Fault} (hc : FaultCause forms s kind) :
    (kind = .unknownOpcode ↔ decodeOne s.stream s.ip.toNat = .error .unknownOpcode) ∧
    (kind = .truncated ↔ decodeOne s.stream s.ip.toNat = .error .truncated) ∧
    (kind = .unsupportedOperation ↔ ∃ i, decodeOne s.stream s.ip.toNat = .ok i ∧ isUnsupported forms i = true) := by
  rcases hc with ⟨e, hd, rfl⟩ | ⟨i, hd, hu, rfl⟩
  · simp [hd]
  · simp [hd, hu]

/-- A running engine that faults does so at fetch, by `raise`, and for a cause. -/
theorem engineStep_faulted {forms : List FormPattern} {s t : State} {kind : Fault} {offset : Word}
    (hr : s.status = .running) (h : engineStep forms s = .next t) (ht : t.status = .faulted kind offset) :
    s.Fetches ∧ offset = s.ip ∧ t = s.raise kind ∧ FaultCause forms s kind := by
  rcases engineStep_cases h with
    ⟨hs, -⟩ | ⟨-, -, -, rfl⟩ | ⟨hf, e, hd, rfl⟩ | ⟨hf, i, hd, hu, rfl⟩ | ⟨-, i, -, -, he⟩
  · exact absurd hr hs
  · exact nomatch ht
  · cases ht
    exact ⟨hf, rfl, rfl, .inl ⟨e, hd, rfl⟩⟩
  · cases ht
    exact ⟨hf, rfl, rfl, .inr ⟨i, hd, hu, rfl⟩⟩
  · have hrun : t.status = .running := (exec_status he).trans hr
    exact nomatch hrun.symm.trans ht

/-! ### The status a running engine steps to (R204) -/

theorem step_status_of_running {s t : State} (hr : s.status = .running) (h : step s = .next t) :
    t.status = .running ∨ (t.status = .halted ∧ s.stream.length ≤ s.ip.toNat) ∨
      ∃ e, t.status = .faulted (faultOfDecode e) s.ip := by
  rcases step_cases h with ⟨hs, -⟩ | ⟨-, -, hend, rfl⟩ | ⟨-, e, -, rfl⟩ | ⟨-, i, -, he⟩
  · exact absurd hr hs
  · exact .inr (.inl ⟨rfl, hend⟩)
  · exact .inr (.inr ⟨e, rfl⟩)
  · exact .inl ((exec_status he).trans hr)

/-! ### The statements -/

/-- Settles O29: a fault of a running engine is raised at fetch, and its cause tells its kind. -/
theorem faultsArePrecise : Obligations.FaultsArePrecise := by
  unfold Obligations.FaultsArePrecise
  intro forms s t kind offset hr h ht
  obtain ⟨⟨-, -, hip⟩, hoffset, hraise, hcause⟩ := engineStep_faulted hr h ht
  exact ⟨hoffset, hraise, hip, hcause.kind_iff⟩

/-- Settles O30: a step of a legal stream answers a next state, and the two decode errors give the two faults. -/
theorem everyStepOfLegalStreamAnswersNext : Obligations.EveryStepOfLegalStreamAnswersNext := by
  unfold Obligations.EveryStepOfLegalStreamAnswersNext
  intro s hl
  obtain ⟨t, h⟩ := engineStep_answers Config.unsupportedForms hl
  refine ⟨t, h, fun hr => ?_⟩
  rcases step_status_of_running hr h with hrun | hhalt | ⟨_ | _, hfault⟩
  · exact .inl hrun
  · exact .inr (.inl hhalt)
  · exact .inr (.inr (.inl hfault))
  · exact .inr (.inr (.inr hfault))

/-- Settles O31: the fault's only cause is a form in the set, and the default set holds none. -/
theorem unsupportedFormFaultsBeforeAnyChange : Obligations.UnsupportedFormFaultsBeforeAnyChange := by
  unfold Obligations.UnsupportedFormFaultsBeforeAnyChange
  refine ⟨fun forms s i hf hd hu => engineStep_unsupported hf hd (isUnsupported_eq_true_iff.mpr hu), ?_⟩
  intro s t hr h offset ht
  obtain ⟨-, -, -, hcause⟩ := engineStep_faulted hr h ht
  obtain ⟨-, -, hunsupported⟩ := hcause.kind_iff
  obtain ⟨i, -, hu⟩ := hunsupported.mp rfl
  exact absurd ((isUnsupported_default i).symm.trans hu) Bool.false_ne_true

/-- Settles O50: a status that is no fault, which alone has the number 0, is Running or Halted. -/
theorem faultNumbersOfStatuses : Obligations.FaultNumbersOfStatuses := by
  unfold Obligations.FaultNumbersOfStatuses
  exact ⟨Fault.eq_or_eq_or_eq, fun _ => ⟨rfl, rfl, rfl⟩,
    fun st => st.code_eq_zero.trans st.forall_ne_faulted_iff, rfl, rfl, faultOfDecode_ne_unsupportedOperation⟩

end Sys2Proof.Machine
end
